-- ==== Sys2Proof/Word.lean ====
section
/-! DEFINITION. The plain types the rest of the model is written in.

A memory cell, an operand and a FIFO entry each hold a *Word* (00_scope.md R8): a signed integer `v`
with WMIN ≤ v ≤ WMAX, or any integer when WORD_BITS is ∞. The width is a parameter of the block, and
the manual computes on mathematical integers and narrows only where a result is stored (R9, R200). So
a Word is an `Int` here, and the width stands in one predicate, `Config.fits` (Machine/Arith.lean):
nothing in the manual treats a cell as bits. -/

namespace Sys2Proof

/-- A text is the sequence of its characters (40_host_interface.md R133, R134). -/
abbrev Text := List Char

/-- The two addressing modes (30_encoding.md R94): digit 0 and digit 1. -/
inductive Mode where
  | position
  | immediate
  deriving DecidableEq, Repr

/-- An error of the block with the detail it records: `K(info)` of the manual's `raise K(info)`
(60_exceptions.md R300; the details follow its last column, as 90_conflicts.md C9 settles). -/
inductive ErrorInfo where
  /-- Construct: the first bad token's index, or the cell count when it exceeds MEM_MAX. -/
  | invalidProgramText (n : Nat)
  /-- A step: the instruction word. -/
  | unknownOpcode (w : Int)
  /-- A step, ReadMemory or WriteMemory: the address out of range. -/
  | memoryOutOfBounds (a : Int)
  /-- Output on an empty output FIFO. -/
  | emptyOutputRead
  /-- A step: the parameter's index and the instruction word. -/
  | invalidAddressingMode (k : Nat) (w : Int)
  /-- Add or Multiply: the exact result. -/
  | arithmeticOverflow (r : Int)
  /-- Input or WriteOutput: the Word that could not be pushed. -/
  | fifoOverflow (v : Int)
  deriving DecidableEq, Repr

end Sys2Proof
end

