-- ==== Sys2Proof/Config.lean ====
section
/-! DEFINITION. The implementation parameters of 00_scope.md R7, and the one free value of the block.
`none` stands for ∞ in every parameter that may be ∞. -/

namespace Sys2Proof

/-- OVERFLOW (R7, R200): what Add or Multiply does when the exact result does not fit. -/
inductive Overflow where
  | trap
  | wrap
  deriving DecidableEq, Repr

/-- The parameters of 00_scope.md R7, under its names. `N` is not here: it is fixed per program, as
the length of the image. -/
structure Config where
  /-- WORD_BITS. -/
  wordBits : Option Nat
  /-- OVERFLOW. -/
  overflow : Overflow
  /-- MEM_MAX. -/
  memMax : Option Nat
  /-- IN_DEPTH. -/
  inDepth : Option Nat
  /-- OUT_DEPTH. -/
  outDepth : Option Nat
  /-- HALT_PC_ADVANCE, 0 or 1. -/
  haltPcAdvance : Fin 2
  /-- TEXT_WS. -/
  textWs : Bool
  /-- PC_BITS. -/
  pcBits : Option Nat
  deriving DecidableEq, Repr

/-- The reference configuration: R7's column "reference". -/
def Config.reference : Config where
  wordBits := some 64
  overflow := .trap
  memMax := none
  inDepth := none
  outDepth := none
  haltPcAdvance := 0
  textWs := true
  pcBits := none

/-- FREE VALUE (log entry 10): the text that DebugDump answers. 93_implementation_defined.md row 2
gives it the treatment `any value`. Its arguments are the number of responses given before it, the PC
and the memory cells, so that two dumps need not agree even in one state. -/
opaque Config.freeDumpText : Nat → Nat → List Int → Text

end Sys2Proof
end

