-- ==== Sys2Proof/Machine/Arith.lean ====
section
/-! DEFINITION. Words of a configured width and the arithmetic law of Add and Multiply
(00_scope.md R8, 42_arithmetic.md R200). -/

namespace Sys2Proof

/-- `2^(w-1)` for a width `w`. -/
def halfRange (w : Nat) : Int := ((2 ^ (w - 1) : Nat) : Int)

/-- `fits(v)` of R8: WMIN ≤ v ≤ WMAX, always true with WORD_BITS = ∞. -/
def Config.fits (c : Config) (v : Int) : Bool :=
  match c.wordBits with
  | none => true
  | some w => decide (-(halfRange w) ≤ v) && decide (v ≤ halfRange w - 1)

/-- The Word congruent to `r` modulo `2^w`: the low `w` bits of `r`, two's complement (R200). -/
def wrapWord (w : Nat) (r : Int) : Int := Int.bmod r (2 ^ w)

/-- `Store(r)` of R200: the Word that is stored for the exact result `r`, or ArithmeticOverflow. -/
def Config.store (c : Config) (r : Int) : Except ErrorInfo Int :=
  if c.fits r then .ok r
  else
    match c.overflow, c.wordBits with
    | .trap, _ => .error (.arithmeticOverflow r)
    | .wrap, some w => .ok (wrapWord w r)
    | .wrap, none => .ok r

/-- Whether a count of `n` is within a capacity that may be ∞ (MEM_MAX, IN_DEPTH, OUT_DEPTH). -/
def withinCap (cap : Option Nat) (n : Nat) : Bool :=
  match cap with
  | none => true
  | some c => decide (n ≤ c)

/-- Whether a FIFO of `n` entries holds its capacity (R41: `length == DEPTH`, never with ∞). -/
def atCap (cap : Option Nat) (n : Nat) : Bool :=
  match cap with
  | none => false
  | some c => decide (n = c)

end Sys2Proof
end

