-- ==== Sys2Proof/Syntax.lean ====
section
/-! DEFINITION. The instruction set: one constructor per row of spec/opcode_table.json
(30_encoding.md R103, 00_scope.md R2).

An `Instr` is what the decoder gets from the instruction word alone: the opcode and the mode of each
source parameter (R91, R107). A destination has no mode (R96). The parameter cells are no part of it:
the cycle reads them one at a time while it executes, each followed by its own operand read or
destination check, and ReadInput may block before it reads any (41_dispatch_cycle.md R177, R178; log
entry 11). -/

namespace Sys2Proof

/-- The nine instructions. `ma` and `mb` are the modes of source parameters 0 and 1. -/
inductive Instr where
  | add (ma mb : Mode)
  | multiply (ma mb : Mode)
  | readInput
  | writeOutput (ma : Mode)
  | jumpIfNonZero (ma mb : Mode)
  | jumpIfZero (ma mb : Mode)
  | lessThan (ma mb : Mode)
  | equals (ma mb : Mode)
  | halt
  deriving DecidableEq, Repr

/-- How many parameter cells follow the instruction word: LEN - 1 (R90, R99). -/
def Instr.params : Instr → Nat
  | .add _ _ => 3
  | .multiply _ _ => 3
  | .readInput => 1
  | .writeOutput _ => 1
  | .jumpIfNonZero _ _ => 2
  | .jumpIfZero _ _ => 2
  | .lessThan _ _ => 3
  | .equals _ _ => 3
  | .halt => 0

end Sys2Proof
end

