-- ==== Sys2Proof/WellFormed.lean ====
section
/-! DEFINITION. What it takes for a configuration, a program image and a laid-out instruction to be
well formed. Every check here is a Bool. -/

namespace Sys2Proof

/-- The legal parameter values of 00_scope.md R7. PC_BITS must hold every value in [0, MEM_MAX], so it
is unbounded when MEM_MAX is ∞. -/
def Config.legal (c : Config) : Bool :=
  (match c.wordBits with | none => true | some w => decide (16 ≤ w)) &&
  (match c.memMax with | none => true | some m => decide (1 ≤ m)) &&
  (match c.inDepth with | none => true | some d => decide (1 ≤ d)) &&
  (match c.outDepth with | none => true | some d => decide (1 ≤ d)) &&
  (match c.pcBits, c.memMax with
   | none, _ => true
   | some _, none => false
   | some b, some m => decide (m < 2 ^ b))

/-- A program image: at least one cell (40_host_interface.md R134), at most MEM_MAX (R133), every cell
a Word (10_state.md R32). -/
def imageWf (c : Config) (image : List Int) : Bool :=
  !image.isEmpty && withinCap c.memMax image.length && image.all c.fits

/-- An instruction laid out with its parameter cells: as many as its format has (30_encoding.md R99),
each a Word (R100). The instruction itself has no ill-formed term: a mode is one of two. -/
def Instr.wf (c : Config) (i : Instr) (ps : List Int) : Bool :=
  decide (ps.length = i.params) && ps.all c.fits

end Sys2Proof
end

