-- ==== Sys2Proof/Decode.lean ====
section
/-! DEFINITION. The dispatch ROM, the decoder and the encoder (30_encoding.md; 10_state.md R44;
41_dispatch_cycle.md R174 to R176). The encoding is decimal: the decoder reads the digits of a cell's
value. -/

namespace Sys2Proof

/-- The handlers of the dispatch ROM, by the source's instruction names (R103). -/
inductive Handler where
  | add | multiply | readInput | writeOutput | jumpIfNonZero | jumpIfZero | lessThan | equals | halt
  deriving DecidableEq, Repr

/-- One row of the dispatch ROM (10_state.md R44). `len` is LEN, `adv` the declared ADV. -/
structure RomRow where
  opcode : Nat
  handler : Handler
  len : Nat
  adv : Nat
  sources : List Nat
  dest : Option Nat
  deriving DecidableEq, Repr

/-- The row of each handler: the ROM's contents as R44 tabulates them. -/
def Handler.row : Handler → RomRow
  | .add => ⟨1, .add, 4, 4, [0, 1], some 2⟩
  | .multiply => ⟨2, .multiply, 4, 4, [0, 1], some 2⟩
  | .readInput => ⟨3, .readInput, 2, 2, [], some 0⟩
  | .writeOutput => ⟨4, .writeOutput, 2, 2, [0], none⟩
  | .jumpIfNonZero => ⟨5, .jumpIfNonZero, 3, 0, [0, 1], none⟩
  | .jumpIfZero => ⟨6, .jumpIfZero, 3, 0, [0, 1], none⟩
  | .lessThan => ⟨7, .lessThan, 4, 4, [0, 1], some 2⟩
  | .equals => ⟨8, .equals, 4, 4, [0, 1], some 2⟩
  | .halt => ⟨99, .halt, 1, 1, [], none⟩

/-- The dispatch ROM (R44, R45): constant, in the order of the opcode table. -/
def dispatchRom : List RomRow :=
  [.add, .multiply, .readInput, .writeOutput, .jumpIfNonZero, .jumpIfZero, .lessThan, .equals,
    .halt].map Handler.row

/-- The dispatch lookup (R175): an opcode's row, none for an opcode that is absent. -/
def romLookup (op : Nat) : Option RomRow := dispatchRom.find? (fun r => r.opcode == op)

/-- `digit(v, k)` of 00_scope.md R9. -/
def digit (v k : Nat) : Nat := v / 10 ^ k % 10

/-- The mode a digit selects (R94); none for a digit from 2 to 9 (R97). -/
def modeOfDigit : Nat → Option Mode
  | 0 => some .position
  | 1 => some .immediate
  | _ => none

/-- The digit of a mode (R94). -/
def Mode.digit : Mode → Nat
  | .position => 0
  | .immediate => 1

/-- The mode check of source parameter `k` of the word `w` (R176): its digit is `digit(flags, k)`. -/
def sourceMode (w : Int) (k : Nat) : Except ErrorInfo Mode :=
  match modeOfDigit (digit (w.toNat / 100) k) with
  | some m => .ok m
  | none => .error (.invalidAddressingMode k w)

/-- The instruction of a handler, with the source modes of the word `w` checked lowest first (R176). -/
def selectInstr (w : Int) : Handler → Except ErrorInfo Instr
  | .add => do let ma ← sourceMode w 0; let mb ← sourceMode w 1; .ok (.add ma mb)
  | .multiply => do let ma ← sourceMode w 0; let mb ← sourceMode w 1; .ok (.multiply ma mb)
  | .readInput => .ok .readInput
  | .writeOutput => do let ma ← sourceMode w 0; .ok (.writeOutput ma)
  | .jumpIfNonZero => do let ma ← sourceMode w 0; let mb ← sourceMode w 1; .ok (.jumpIfNonZero ma mb)
  | .jumpIfZero => do let ma ← sourceMode w 0; let mb ← sourceMode w 1; .ok (.jumpIfZero ma mb)
  | .lessThan => do let ma ← sourceMode w 0; let mb ← sourceMode w 1; .ok (.lessThan ma mb)
  | .equals => do let ma ← sourceMode w 0; let mb ← sourceMode w 1; .ok (.equals ma mb)
  | .halt => .ok .halt

/-- The decoder: any instruction word to an instruction, or the error the step raises for it. A
negative word first (R93, R174), then the lookup (R104, R175), then the mode check (R97, R176). -/
def decode (w : Int) : Except ErrorInfo Instr :=
  if w < 0 then .error (.unknownOpcode w)
  else
    match romLookup (w.toNat % 100) with
    | none => .error (.unknownOpcode w)
    | some row => selectInstr w row.handler

/-- The handler of an instruction. -/
def Instr.handler : Instr → Handler
  | .add _ _ => .add
  | .multiply _ _ => .multiply
  | .readInput => .readInput
  | .writeOutput _ => .writeOutput
  | .jumpIfNonZero _ _ => .jumpIfNonZero
  | .jumpIfZero _ _ => .jumpIfZero
  | .lessThan _ _ => .lessThan
  | .equals _ _ => .equals
  | .halt => .halt

/-- The modes of an instruction's source parameters, parameter 0 first. -/
def Instr.modes : Instr → List Mode
  | .add ma mb => [ma, mb]
  | .multiply ma mb => [ma, mb]
  | .readInput => []
  | .writeOutput ma => [ma]
  | .jumpIfNonZero ma mb => [ma, mb]
  | .jumpIfZero ma mb => [ma, mb]
  | .lessThan ma mb => [ma, mb]
  | .equals ma mb => [ma, mb]
  | .halt => []

/-- The digits of a list of modes, read as a number: the first mode is the lowest digit. -/
def modeDigits : List Mode → Nat
  | [] => 0
  | m :: ms => m.digit + 10 * modeDigits ms

/-- The canonical word of an instruction: `op + 100*m0 + 1000*m1` (R107). -/
def encodeWord (i : Instr) : Int :=
  ((i.handler.row.opcode + 100 * modeDigits i.modes : Nat) : Int)

/-- The encoder: the canonical word, then the parameter cells in order (R90, R113). -/
def encode (i : Instr) (ps : List Int) : List Int := encodeWord i :: ps

/-- Why a list of cells does not decode to a whole instruction. -/
inductive DecodeFailure where
  /-- The list is empty. -/
  | noWord
  /-- The instruction word is refused, with the error a step raises for it. -/
  | badWord (e : ErrorInfo)
  /-- The list ends before the last parameter cell of the instruction. -/
  | tooShort (i : Instr)
  deriving DecidableEq, Repr

/-- The decoder on a list of cells: the instruction, its parameter cells and the cells after it. -/
def decodeCells : List Int → Except DecodeFailure (Instr × List Int × List Int)
  | [] => .error .noWord
  | w :: rest =>
    match decode w with
    | .error e => .error (.badWord e)
    | .ok i =>
      if rest.length < i.params then .error (.tooShort i)
      else .ok (i, rest.take i.params, rest.drop i.params)

/-- Cell `k` of an instruction given as one number whose bits are the cells' bits, the first cell's
lowest: 64-bit two's-complement cells, the reference WORD_BITS (log entry 12: the manual gives a cell
no layout in bits, R67). -/
def tableCell (v k : Nat) : Int := Int.bmod ((v / 2 ^ (64 * k) : Nat) : Int) (2 ^ 64)

/-- The four cells of an instruction whose low `nbits` bits are those of `w` and whose other bits are 0.
No instruction occupies more than four cells (R90). -/
def tableCells (nbits w : Nat) : List Int :=
  [tableCell (w % 2 ^ nbits) 0, tableCell (w % 2 ^ nbits) 1, tableCell (w % 2 ^ nbits) 2,
    tableCell (w % 2 ^ nbits) 3]

/-- The instruction the decoder reads from an instruction whose bits are `w`. -/
def decodeTableWord (nbits w : Nat) : Option Instr :=
  match decodeCells (tableCells nbits w) with
  | .ok (i, _, _) => some i
  | .error _ => none

end Sys2Proof
end

