-- ==== Sys2Proof/Machine/State.lean ====
section
/-! DEFINITION. The state of the block, as plain data (10_state.md R46, R47), the outcomes a step can
stop with, and the state right after reset (70_reset_and_hazards.md R340). -/

namespace Sys2Proof.Machine

/-- The memory array (10_state.md R32): the list of its cells, cell 0 first, so its length is `N`.
Every cell of [0, N) is listed, and no address outside exists, so equal memories are equal lists (log
entry 2). -/
abbrev Memory := List Int

/-- The execution-state register (R37). -/
inductive ExecState where
  | initialized
  | running
  | blockedOnInput
  | halted
  deriving DecidableEq, Repr

/-- The fault record's contents (R42): `error` gives the kind and the detail (their pairing is fixed by
60_exceptions.md R300), `pc` the PC of the instruction that faulted, or none for a host command. -/
structure FaultRecord where
  error : ErrorInfo
  pc : Option Nat
  deriving DecidableEq, Repr

/-- The ten commands of the command port (40_host_interface.md R130). -/
inductive Command where
  | construct (text : Text)
  | reboot
  | input (v : Int)
  | output
  | peekOutput
  | readMemory (a : Int)
  | writeMemory (a v : Int)
  | run
  | currentState
  | debugDump
  deriving DecidableEq, Repr

/-- What the block answers a command (R130, column "response", and 60_exceptions.md R308 for errors). -/
inductive Response where
  /-- Construct: a new instance. -/
  | constructed
  /-- A command with no response value, done. -/
  | done
  /-- Output, ReadMemory. -/
  | word (v : Int)
  /-- PeekOutput. -/
  | words (vs : List Int)
  /-- Run, CurrentState. -/
  | state (e : ExecState)
  /-- DebugDump. -/
  | dump (t : Text)
  /-- The command raised this error, or was refused with this recorded one. -/
  | error (f : FaultRecord)
  deriving DecidableEq, Repr

/-- The state of one instance (R46), with the model's own fields `cfg`, `cmds` and `resps` after it. -/
structure State where
  /-- `mem`: the memory array. -/
  mem : Memory
  /-- `pc`: the program counter. -/
  pc : Nat
  /-- `state`: the execution-state register. -/
  state : ExecState
  /-- `inq`: the input FIFO, oldest first. -/
  inq : List Int
  /-- `outq`: the output FIFO, oldest first. -/
  outq : List Int
  /-- `fault`: the fault record. -/
  fault : Option FaultRecord
  /-- `image`: the image ROM. Empty when no instance has been constructed (log entry 3). -/
  image : List Int
  /-- The parameters, fixed for the life of the instance (log entry 1). -/
  cfg : Config
  /-- The commands the host has still to issue, oldest first (log entry 4). -/
  cmds : List Command
  /-- The responses given so far, oldest first (log entry 4). -/
  resps : List Response
  deriving DecidableEq, Repr

/-- The reasons the step stops with a fault. The errors of 60_exceptions.md are none of them: they are
next states with the fault record set. -/
inductive Fault where
  /-- Raised by the step for a command other than Construct when no instance exists. The manual gives
  such a command no effect: a command goes to an instance. Safe (log entry 6). -/
  | noInstance
  deriving DecidableEq, Repr

/-- The reasons the step refuses. -/
inductive Refusal where
  /-- Raised by exec for an instruction that has no meaning yet. Safe. No arm of this model uses it. -/
  | notModelled (mnemonic : String)
  /-- Raised by the step for Input or WriteMemory with a value that is not a Word: the request type
  of 40_host_interface.md R130 is Word, so such a command is no request of the port. Safe (log entry 7). -/
  | notAWord (v : Int)
  deriving DecidableEq, Repr

/-- The block of configuration `c` before its Construct: no image, and every other register at its reset
value of 70_reset_and_hazards.md R340 (log entry 3). -/
def State.resetWith (c : Config) : State where
  mem := []
  pc := 0
  state := .initialized
  inq := []
  outq := []
  fault := none
  image := []
  cfg := c
  cmds := []
  resps := []

/-- The reset state, in the reference configuration (R7). -/
def State.reset : State := State.resetWith Config.reference

end Sys2Proof.Machine
end

