-- ==== Sys2Proof/Machine/Ops.lean ====
section
/-! DEFINITION. The named operations over memory, registers and FIFOs (00_scope.md R10), raising an error
and returning from one. -/

namespace Sys2Proof

/-- The numeric code of an error's kind (60_exceptions.md R300, the table). Code 0 is no error. -/
def ErrorInfo.code : ErrorInfo → Nat
  | .invalidProgramText _ => 1
  | .unknownOpcode _ => 2
  | .memoryOutOfBounds _ => 3
  | .emptyOutputRead => 4
  | .invalidAddressingMode _ _ => 5
  | .arithmeticOverflow _ => 6
  | .fifoOverflow _ => 7

/-- The detail an error records, in the order of R300's last column; nothing for EmptyOutputRead. -/
def ErrorInfo.detail : ErrorInfo → List Int
  | .invalidProgramText n => [(n : Int)]
  | .unknownOpcode w => [w]
  | .memoryOutOfBounds a => [a]
  | .emptyOutputRead => []
  | .invalidAddressingMode k w => [(k : Int), w]
  | .arithmeticOverflow r => [r]
  | .fifoOverflow v => [v]

end Sys2Proof

namespace Sys2Proof.Machine

/-- The triple `(kind, pc, detail)` of a fault record, with the kind as its code (10_state.md R42, 60_exceptions.md
R308). -/
def FaultRecord.triple (f : FaultRecord) : Nat × Option Nat × List Int := (f.error.code, f.pc, f.error.detail)

/-- The code the fault record holds: 0 when it is `none` (R300). -/
def State.faultCode (s : State) : Nat :=
  match s.fault with
  | none => 0
  | some f => f.error.code

/-- The 2-bit code of the execution-state register (10_state.md R37). -/
def ExecState.code : ExecState → BitVec 2
  | .initialized => 0
  | .running => 1
  | .blockedOnInput => 2
  | .halted => 3

/-- One cell of memory at an integer address; none outside [0, N) (20_memory.md R63). -/
def Memory.read (m : Memory) (a : Int) : Option Int :=
  if 0 ≤ a then m[a.toNat]? else none

/-- Memory with cell `a` set to `v`; unchanged for an address outside [0, N), which callers check. -/
def Memory.write (m : Memory) (a v : Int) : Memory :=
  if 0 ≤ a then m.set a.toNat v else m

/-- The form every memory has: at most MEM_MAX cells, each a Word (10_state.md R32; log entry 2). -/
def Memory.wf (c : Config) (m : Memory) : Bool := withinCap c.memMax m.length && m.all c.fits

/-- `0 ≤ a < N`. -/
def State.inRange (s : State) (a : Int) : Bool := decide (0 ≤ a) && decide (a < (s.mem.length : Int))

/-- `MemRead(a, 1)` (R10): the cell, or MemoryOutOfBounds(a). -/
def State.memRead (s : State) (a : Int) : Except ErrorInfo Int :=
  match Memory.read s.mem a with
  | some v => .ok v
  | none => .error (.memoryOutOfBounds a)

/-- `MemWrite(a, 1, v)` (R10): the cell is set, or MemoryOutOfBounds(a) and nothing is written. -/
def State.memWrite (s : State) (a v : Int) : Except ErrorInfo State :=
  if s.inRange a then .ok { s with mem := Memory.write s.mem a v }
  else .error (.memoryOutOfBounds a)

/-- `pc <- t`. -/
def State.setPc (s : State) (t : Nat) : State := { s with pc := t }

/-- The PC advance of 41_dispatch_cycle.md R180. -/
def State.advance (s : State) (n : Nat) : State := { s with pc := s.pc + n }

/-- `state <- e`. -/
def State.setState (s : State) (e : ExecState) : State := { s with state := e }

/-- `InPush(v)`: append at the tail of the input FIFO. -/
def State.inPush (s : State) (v : Int) : State := { s with inq := s.inq ++ [v] }

/-- `OutPush(v)`: append at the tail of the output FIFO. -/
def State.outPush (s : State) (v : Int) : State := { s with outq := s.outq ++ [v] }

/-- TAKING AN ERROR (60_exceptions.md R308, R312): the fault record gets the error and `pc`, which poisons
the instance. Nothing else is written (41_dispatch_cycle.md R181; log entry 9). -/
def State.raise (s : State) (pc : Option Nat) (e : ErrorInfo) : State :=
  { s with fault := some ⟨e, pc⟩ }

/-- Loading an image (40_host_interface.md R133): memory is the image and every register is at its reset
value. -/
def State.load (s : State) (image : List Int) : State :=
  { s with
    image := image
    mem := image
    pc := 0
    inq := []
    outq := []
    state := .initialized
    fault := none }

/-- THE RETURN FROM AN ERROR (60_exceptions.md R314): Reboot reloads the instance's own image and clears
the fault record (40_host_interface.md R135, 70_reset_and_hazards.md R341). -/
def State.reboot (s : State) : State := s.load s.image

/-- The block answers the host. -/
def State.respond (s : State) (r : Response) : State := { s with resps := s.resps ++ [r] }

/-- The end of an instruction: its next state, or the error it raised, recorded with the instruction's
own PC (R308). -/
def State.settle (s : State) (r : Except ErrorInfo State) : Host.Outcome State Fault Refusal :=
  match r with
  | .ok t => .next t
  | .error e => .next (s.raise (some s.pc) e)

end Sys2Proof.Machine
end

