-- ==== Sys2Proof/Machine/Operands.lean ====
section
/-! DEFINITION. Parameter resolution (41_dispatch_cycle.md R178): every operand form of the block, and the
shared shapes of the instructions that use them. -/

namespace Sys2Proof.Machine

/-- Parameter `k`'s cell, `pc + 1 + k` (30_encoding.md R90); past the end it raises (20_memory.md R64). -/
def State.param (s : State) (k : Nat) : Except ErrorInfo Int := s.memRead ((s.pc : Int) + 1 + (k : Int))

/-- The operand of source parameter `k` in mode `m` (30_encoding.md R101). -/
def State.source (s : State) (k : Nat) (m : Mode) : Except ErrorInfo Int := do
  let p ← s.param k
  match m with
  | .immediate => .ok p
  | .position => s.memRead p

/-- The destination of destination parameter `k`: its raw value, which must be in range (30_encoding.md
R96, R102). -/
def State.destination (s : State) (k : Nat) : Except ErrorInfo Int := do
  let p ← s.param k
  if s.inRange p then .ok p else .error (.memoryOutOfBounds p)

/-- The shape of Add, Multiply, LessThan and Equals (format F2S1D): resolve `a`, `b` and `dst`, compute,
write the result to `dst`, advance. -/
def State.writeResult (s : State) (h : Handler) (ma mb : Mode)
    (f : Int → Int → Except ErrorInfo Int) : Host.Outcome State Fault Refusal :=
  s.settle do
    let a ← s.source 0 ma
    let b ← s.source 1 mb
    let dst ← s.destination 2
    let v ← f a b
    let t ← s.memWrite dst v
    .ok (t.advance h.row.adv)

/-- The shape of both jumps (format F2S, 44_jumps.md R240 to R243): resolve `a` and `b`; a taken jump checks
its target before it writes PC; one that is not taken goes to `pc + LEN`; the generic advance adds ADV. -/
def State.jump (s : State) (h : Handler) (ma mb : Mode) (taken : Int → Bool) :
    Host.Outcome State Fault Refusal :=
  s.settle do
    let a ← s.source 0 ma
    let b ← s.source 1 mb
    if taken a then
      if s.inRange b then .ok ((s.setPc b.toNat).advance h.row.adv)
      else .error (.memoryOutOfBounds b)
    else .ok ((s.setPc (s.pc + h.row.len)).advance h.row.adv)

end Sys2Proof.Machine
end

