-- ==== Sys2Proof/Machine/Arithmetic.lean ====
section
/-! DEFINITION. Add and Multiply (42_arithmetic.md). -/

namespace Sys2Proof.Machine

/-- R201: `mem[dst] = Store(a + b)`. -/
def execAdd (ma mb : Mode) (s : State) : Host.Outcome State Fault Refusal :=
  s.writeResult .add ma mb (fun a b => s.cfg.store (a + b))

/-- R202: `mem[dst] = Store(a * b)`. -/
def execMultiply (ma mb : Mode) (s : State) : Host.Outcome State Fault Refusal :=
  s.writeResult .multiply ma mb (fun a b => s.cfg.store (a * b))

end Sys2Proof.Machine
end

