-- ==== Sys2Proof/Machine/Flags.lean ====
section
/-! DEFINITION. The block has no status flags or condition codes (10_state.md R31): a comparison's result is
a Word, 1 or 0, and a jump tests an operand's value. Those two computations stand here. -/

namespace Sys2Proof.Machine

/-- The Word a comparison writes: `(c) ? 1 : 0` (45_compare.md R260, R261). -/
def truthWord (c : Bool) : Int := if c then 1 else 0

/-- The condition of JumpIfNonZero: any value but 0 is true (44_jumps.md R240). -/
def isNonZero (a : Int) : Bool := decide (a ≠ 0)

/-- The condition of JumpIfZero (R241). -/
def isZero (a : Int) : Bool := decide (a = 0)

end Sys2Proof.Machine
end

