-- ==== Sys2Proof/Machine/Compare.lean ====
section
/-! DEFINITION. LessThan and Equals (45_compare.md). -/

namespace Sys2Proof.Machine

/-- R260: `mem[dst] = (a < b) ? 1 : 0`, signed. -/
def execLessThan (ma mb : Mode) (s : State) : Host.Outcome State Fault Refusal :=
  s.writeResult .lessThan ma mb (fun a b => .ok (truthWord (decide (a < b))))

/-- R261: `mem[dst] = (a == b) ? 1 : 0`. -/
def execEquals (ma mb : Mode) (s : State) : Host.Outcome State Fault Refusal :=
  s.writeResult .equals ma mb (fun a b => .ok (truthWord (decide (a = b))))

end Sys2Proof.Machine
end

