-- ==== Sys2Proof/Machine/Halt.lean ====
section
/-! DEFINITION. Halt (46_halt.md). -/

namespace Sys2Proof.Machine

/-- R280: the state becomes Halted and PC advances by HALT_PC_ADVANCE (41_dispatch_cycle.md R180). -/
def execHalt (s : State) : Host.Outcome State Fault Refusal :=
  .next ((s.setState .halted).advance s.cfg.haltPcAdvance.val)

end Sys2Proof.Machine
end

