-- ==== Sys2Proof/Machine/InputOutput.lean ====
section
/-! DEFINITION. ReadInput and WriteOutput (43_io.md). -/

namespace Sys2Proof.Machine

/-- R220, with the pre-check of 41_dispatch_cycle.md R177: on an empty input FIFO the state becomes
BlockedOnInput and nothing else happens; otherwise the destination is resolved, then the oldest entry is
popped and written there. -/
def execReadInput (s : State) : Host.Outcome State Fault Refusal :=
  match s.inq with
  | [] => .next (s.setState .blockedOnInput)
  | v :: rest =>
    s.settle do
      let dst ← s.destination 0
      let t ← ({ s with inq := rest } : State).memWrite dst v
      .ok (t.advance Handler.readInput.row.adv)

/-- R221: the operand is pushed to the output FIFO, or FifoOverflow when the FIFO holds its capacity. -/
def execWriteOutput (ma : Mode) (s : State) : Host.Outcome State Fault Refusal :=
  s.settle do
    let a ← s.source 0 ma
    if atCap s.cfg.outDepth s.outq.length then .error (.fifoOverflow a)
    else .ok ((s.outPush a).advance Handler.writeOutput.row.adv)

end Sys2Proof.Machine
end

