-- ==== Sys2Proof/Machine/Jumps.lean ====
section
/-! DEFINITION. JumpIfNonZero and JumpIfZero (44_jumps.md). -/

namespace Sys2Proof.Machine

/-- R240: `PC = (a != 0) ? b : PC + 3`. -/
def execJumpIfNonZero (ma mb : Mode) (s : State) : Host.Outcome State Fault Refusal :=
  s.jump .jumpIfNonZero ma mb isNonZero

/-- R241: `PC = (a == 0) ? b : PC + 3`. -/
def execJumpIfZero (ma mb : Mode) (s : State) : Host.Outcome State Fault Refusal :=
  s.jump .jumpIfZero ma mb isZero

end Sys2Proof.Machine
end

