-- ==== Sys2Proof/Machine/Dispatch.lean ====
section
/-! DEFINITION. The dispatch multiplexer (41_dispatch_cycle.md R175, R179): one arm per instruction. -/

namespace Sys2Proof.Machine

/-- Execute one decoded instruction, whose instruction word is at the PC of `s`. -/
def exec (i : Instr) (s : State) : Host.Outcome State Fault Refusal :=
  match i with
  | .add ma mb => Sys2Proof.Machine.execAdd ma mb s
  | .multiply ma mb => Sys2Proof.Machine.execMultiply ma mb s
  | .readInput => Sys2Proof.Machine.execReadInput s
  | .writeOutput ma => Sys2Proof.Machine.execWriteOutput ma s
  | .jumpIfNonZero ma mb => Sys2Proof.Machine.execJumpIfNonZero ma mb s
  | .jumpIfZero ma mb => Sys2Proof.Machine.execJumpIfZero ma mb s
  | .lessThan ma mb => Sys2Proof.Machine.execLessThan ma mb s
  | .equals ma mb => Sys2Proof.Machine.execEquals ma mb s
  | .halt => Sys2Proof.Machine.execHalt s

end Sys2Proof.Machine
end

