-- ==== Sys2Proof/Machine/Cycle.lean ====
section
/-! DEFINITION. One decode/execute cycle inside a Run (41_dispatch_cycle.md R170 to R180), and the placing of
an instruction where the cycle fetches. -/

namespace Sys2Proof.Machine

/-- Inside a Run: the state is `Running` and no step has raised (R170, R186). -/
def State.inRun (s : State) : Bool := decide (s.state = .running) && s.fault.isNone

/-- Fetch and decode (R173 to R176). -/
def State.fetchDecode (s : State) : Except ErrorInfo Instr := do
  let w ← s.memRead (s.pc : Int)
  decode w

/-- The Run loop after a step (R170, R171): a Run that has ended answers its command, with the error that
ended it or with the state it ended in. -/
def State.endCycle (s : State) : State :=
  match s.fault with
  | some f => s.respond (.error f)
  | none => if s.state = .running then s else s.respond (.state s.state)

/-- One step of the cycle (R172). -/
def State.cycle (s : State) : Host.Outcome State Fault Refusal :=
  match s.fetchDecode with
  | .error e => .next (s.raise (some s.pc) e).endCycle
  | .ok i =>
    match exec i s with
    | .next t => .next t.endCycle
    | .fault f => .fault f
    | .refused r => .refused r

/-- Memory with `cells` placed from address `start` on, grown as far as that takes. -/
def placeCells (m : Memory) (start : Nat) (cells : List Int) : Memory :=
  m.take start ++ List.replicate (start - m.length) 0 ++ cells ++ m.drop (start + cells.length)

/-- The instance with `cells` loaded at its PC and a Run in progress: the image grows with the memory, and
the fault record is clear (log entry 13). -/
def State.placeAtPc (s : State) (cells : List Int) : State :=
  { s with
    mem := placeCells s.mem s.pc cells
    image := s.image ++ (placeCells s.mem s.pc cells).drop s.image.length
    state := .running
    fault := none }

end Sys2Proof.Machine
end

