-- ==== Sys2Proof/Machine/ProgramText.lean ====
section
/-! DEFINITION. The program text (40_host_interface.md R133, R134; 30_encoding.md R114): parsing it into an
image, and writing an image out. -/

namespace Sys2Proof.Machine

/-- `ws` of R134's grammar. -/
def isWs (c : Char) : Bool := c == ' ' || c == '\t' || c == '\r' || c == '\n'

/-- `digit` of R134's grammar. -/
def isDigitChar (c : Char) : Bool := decide (48 ≤ c.toNat) && decide (c.toNat ≤ 57)

/-- Split at every `c`: the number of pieces is the number of `c`s plus 1. -/
def splitAtEvery (c : Char) : Text → List Text
  | [] => [[]]
  | d :: rest =>
    if d == c then [] :: splitAtEvery c rest
    else
      match splitAtEvery c rest with
      | [] => [[d]]
      | t :: ts => (d :: t) :: ts

/-- A text without the whitespace around it. -/
def trimWs (t : Text) : Text := ((t.dropWhile isWs).reverse.dropWhile isWs).reverse

/-- Digits read as a decimal numeral, most significant digit first; none unless `digit+`. -/
def digitsValue (t : Text) : Option Nat :=
  if !t.isEmpty && t.all isDigitChar then some (t.foldl (fun n c => 10 * n + (c.toNat - 48)) 0)
  else none

/-- The value of `sign? digit+`; none for any other text. -/
def numeralValue : Text → Option Int
  | '-' :: t => (digitsValue t).map (fun (n : Nat) => -(n : Int))
  | t => (digitsValue t).map (fun (n : Nat) => (n : Int))

/-- The Word of one token (R134); none for a token that does not match or does not fit. -/
def tokenValue (c : Config) (t : Text) : Option Int :=
  match numeralValue (if c.textWs then trimWs t else t) with
  | some v => if c.fits v then some v else none
  | none => none

/-- The Words of the tokens from number `k` on, or the index of the first bad token (60_exceptions.md
R300, row 1). -/
def tokenValues (c : Config) (k : Nat) : List Text → Except Nat (List Int)
  | [] => .ok []
  | t :: ts =>
    match tokenValue c t with
    | none => .error k
    | some v =>
      match tokenValues c (k + 1) ts with
      | .error n => .error n
      | .ok vs => .ok (v :: vs)

/-- `ParseProgram` (R134). -/
def parseProgram (c : Config) (t : Text) : Except ErrorInfo (List Int) :=
  match tokenValues c 0 (splitAtEvery ',' t) with
  | .ok vs => .ok vs
  | .error n => .error (.invalidProgramText n)

/-- The image Construct loads (R133): the parsed cells, at most MEM_MAX of them. -/
def loadProgram (c : Config) (t : Text) : Except ErrorInfo (List Int) :=
  match parseProgram c t with
  | .error e => .error e
  | .ok cells =>
    if withinCap c.memMax cells.length then .ok cells
    else .error (.invalidProgramText cells.length)

/-- The character of a digit. -/
def digitChar (d : Nat) : Char := Char.ofNat (48 + d)

/-- The digits of `n` before the text `acc`, with `fuel` for as many digits as `n` has. -/
def natTextGo : Nat → Nat → Text → Text
  | 0, _, acc => acc
  | fuel + 1, n, acc =>
    if n < 10 then digitChar n :: acc else natTextGo fuel (n / 10) (digitChar (n % 10) :: acc)

/-- A natural number in decimal. A number has at most as many decimal digits as binary ones. -/
def natText (n : Nat) : Text := natTextGo (n.log2 + 1) n []

/-- An integer as a decimal numeral. -/
def intText (v : Int) : Text := if v < 0 then '-' :: natText v.natAbs else natText v.natAbs

/-- Pieces of text with a separator between each two. -/
def joinWith (sep : Text) : List Text → Text
  | [] => []
  | [t] => t
  | t :: u :: ts => t ++ sep ++ joinWith sep (u :: ts)

/-- A program image written out (30_encoding.md R114). -/
def programText (image : List Int) : Text := joinWith [','] (image.map intText)

/-- The layout that 40_host_interface.md R144 recommends for DebugDump. What the block answers is the
free value `Config.freeDumpText`, because no claim may depend on the text (log entry 10). -/
def recommendedDump (pc : Nat) (mem : List Int) : Text :=
  ['['] ++ natText pc ++ [']', ' '] ++ joinWith [',', ' '] (mem.map intText)

end Sys2Proof.Machine
end

