-- ==== Sys2Proof/Machine/HostPort.lean ====
section
/-! DEFINITION. The command port (40_host_interface.md): what the block does with each command between Runs. -/

namespace Sys2Proof.Machine

/-- A host command raises an error: recorded with no PC, and answered (60_exceptions.md R308). -/
def State.raiseCommand (s : State) (e : ErrorInfo) : State :=
  (s.raise none e).respond (.error ⟨e, none⟩)

/-- Construct (R133): the parsed image is loaded; an InvalidProgramText makes no instance and so leaves
everything as it is. When this state already holds an instance, the host discards it for the new one (log
entry 5). -/
def State.construct (s : State) (t : Text) : State :=
  match loadProgram s.cfg t with
  | .ok image => (s.load image).respond .constructed
  | .error e => s.respond (.error ⟨e, none⟩)

/-- Input (R137). -/
def State.input (s : State) (v : Int) : State :=
  if atCap s.cfg.inDepth s.inq.length then s.raiseCommand (.fifoOverflow v)
  else (s.inPush v).respond .done

/-- Output (R138). -/
def State.output (s : State) : State :=
  match s.outq with
  | [] => s.raiseCommand .emptyOutputRead
  | v :: rest => ({ s with outq := rest } : State).respond (.word v)

/-- ReadMemory (R140). -/
def State.readMemory (s : State) (a : Int) : State :=
  match s.memRead a with
  | .ok v => s.respond (.word v)
  | .error e => s.raiseCommand e

/-- WriteMemory (R141). -/
def State.writeMemory (s : State) (a v : Int) : State :=
  match s.memWrite a v with
  | .ok t => t.respond .done
  | .error e => s.raiseCommand e

/-- A command the block accepts (R132, and R133 to R144 one by one). Run only enters `Running` here: the
cycle answers it when it ends (41_dispatch_cycle.md R170). -/
def State.accept (s : State) (c : Command) : State :=
  match c with
  | .construct t => s.construct t
  | .reboot => s.reboot.respond .done
  | .input v => s.input v
  | .output => s.output
  | .peekOutput => s.respond (.words s.outq)
  | .readMemory a => s.readMemory a
  | .writeMemory a v => s.writeMemory a v
  | .run => s.setState .running
  | .currentState => s.respond (.state s.state)
  | .debugDump => s.respond (.dump (Config.freeDumpText s.resps.length s.pc s.mem))

/-- Whether a command is Construct. -/
def Command.isConstruct : Command → Bool
  | .construct _ => true
  | _ => false

/-- A command's value argument when it is not a Word (R130 gives it that type). -/
def Command.badWord (cfg : Config) : Command → Option Int
  | .input v => if cfg.fits v then none else some v
  | .writeMemory _ v => if cfg.fits v then none else some v
  | _ => none

/-- The block takes a command (R132). Construct needs no instance. A poisoned instance takes Reboot and
refuses every other command with the recorded fault, changing nothing (60_exceptions.md R312). -/
def State.perform (s : State) (c : Command) : Host.Outcome State Fault Refusal :=
  if c.isConstruct then .next (s.accept c)
  else if s.image.isEmpty then .fault .noInstance
  else
    match s.fault with
    | some f => if c = .reboot then .next (s.accept c) else .next (s.respond (.error f))
    | none =>
      match c.badWord s.cfg with
      | some v => .refused (.notAWord v)
      | none => .next (s.accept c)

/-- The block between Runs: it takes the host's next command, or waits when there is none
(60_exceptions.md R318). -/
def State.takeCommand (s : State) : Host.Outcome State Fault Refusal :=
  match s.cmds with
  | [] => .next s
  | c :: rest => ({ s with cmds := rest } : State).perform c

end Sys2Proof.Machine
end

