-- ==== Sys2Proof/Machine/Step.lean ====
section
/-! DEFINITION. The step of the machine: inside a Run one decode/execute cycle, and between Runs one host
command (40_host_interface.md R131, 41_dispatch_cycle.md R170). -/

namespace Sys2Proof.Machine

/-- One step. While a Run is in progress the host has no move (R131). -/
def step (s : State) : Host.Outcome State Fault Refusal :=
  if s.inRun then s.cycle else s.takeCommand

/-- `s` with the instruction whose bits are `w` (Decode.lean, `tableCells`) stored where `step` fetches
next, and a Run in progress, so that the very next step fetches and runs it (log entry 13). -/
def State.withFetchWord (s : State) (nbits w : Nat) : State := s.placeAtPc (tableCells nbits w)

end Sys2Proof.Machine
end

