-- ==== Sys2Proof/Machine/Assembly.lean ====
section
/-! DEFINITION. The assembly syntax of 30_encoding.md R108 to R113. It is the spec's own and informative;
what it leaves open (blanks, labels without a statement, what is an error) is log entry 18. -/

namespace Sys2Proof.Machine

/-- An operand expression: a decimal integer or a label (R109). -/
inductive AsmExpr where
  | num (v : Int)
  | label (name : Text)
  deriving DecidableEq, Repr

/-- An operand: `[e]` or `#e` (R109). -/
inductive AsmArg where
  | cell (e : AsmExpr)
  | imm (e : AsmExpr)
  deriving DecidableEq, Repr

/-- A statement: an instruction (R110), a pseudo-instruction (R112) or `.word` (R111). -/
inductive AsmStmt where
  | op (h : Handler) (args : List AsmArg)
  | jump (target : AsmArg)
  | copy (src dst : AsmArg)
  | word (vs : List Int)
  deriving DecidableEq, Repr

/-- A source line without its comment (R108). -/
structure AsmLine where
  label : Option Text
  stmt : Option AsmStmt
  deriving DecidableEq, Repr

/-- The expansion of the two pseudo-instructions (R112). -/
def AsmStmt.expand : AsmStmt → AsmStmt
  | .jump s => .op .jumpIfNonZero [.imm (.num 1), s]
  | .copy s d => .op .add [s, .imm (.num 0), d]
  | t => t

/-- The cells a statement occupies. -/
def AsmStmt.size (t : AsmStmt) : Nat :=
  match t.expand with
  | .op h _ => h.row.len
  | .word vs => vs.length
  | _ => 0

/-- The mode digit an operand contributes to the canonical word (R113). -/
def AsmArg.digit : AsmArg → Nat
  | .cell _ => 0
  | .imm _ => 1

/-- The expression of an operand. -/
def AsmArg.expr : AsmArg → AsmExpr
  | .cell e => e
  | .imm e => e

/-- The value of an expression, the labels standing for the addresses of `env`. -/
def AsmExpr.value (env : List (Text × Nat)) : AsmExpr → Option Int
  | .num v => some v
  | .label n => (env.lookup n).map (fun (a : Nat) => (a : Int))

/-- The operand digits as a number, the first operand's lowest. -/
def argDigits : List AsmArg → Nat
  | [] => 0
  | a :: as => a.digit + 10 * argDigits as

/-- One assembled instruction: its canonical word, then its operand values in order (R113). None for a destination
written `#e` (R110); and, DESIGN CHOICE (log entry 18), for a wrong number of operands or an unknown label. -/
def assembleOp (env : List (Text × Nat)) (h : Handler) (args : List AsmArg) : Option (List Int) :=
  if decide (args.length + 1 = h.row.len) &&
      (match h.row.dest with
       | none => true
       | some k => (args[k]?).any (fun a => a.digit == 0)) then
    (args.mapM (fun (a : AsmArg) => a.expr.value env)).map
      (fun vs => ((h.row.opcode + 100 * argDigits args : Nat) : Int) :: vs)
  else none

/-- The cells of a statement (R111 to R113). -/
def AsmStmt.cells (env : List (Text × Nat)) (t : AsmStmt) : Option (List Int) :=
  match t.expand with
  | .op h args => assembleOp env h args
  | .word vs => some vs
  | _ => none

/-- The labels of a program with the addresses they name, from address `n` on: where the next statement starts
(R108). DESIGN CHOICE (log entry 18): a label that no statement follows, on which R108 is silent, names the address
just past the last cell. -/
def labelTable (n : Nat) : List AsmLine → List (Text × Nat)
  | [] => []
  | l :: ls =>
    (match l.label with
     | some name => [(name, n)]
     | none => []) ++ labelTable (n + (match l.stmt with | some t => t.size | none => 0)) ls

/-- The cells of a list of lines. -/
def lineCells (env : List (Text × Nat)) : List AsmLine → Option (List Int)
  | [] => some []
  | l :: ls =>
    match l.stmt with
    | none => lineCells env ls
    | some t =>
      match t.cells env, lineCells env ls with
      | some cs, some rest => some (cs ++ rest)
      | _, _ => none

/-- The assembler: the program image of the lines, or none for an assembly error. -/
def assemble (ls : List AsmLine) : Option (List Int) :=
  if decide ((labelTable 0 ls).map Prod.fst).Nodup then lineCells (labelTable 0 ls) ls else none

/-! ### Reading source lines -/

/-- The mnemonics of R110. -/
def handlerName : Handler → Text
  | .add => "Add".toList
  | .multiply => "Multiply".toList
  | .readInput => "ReadInput".toList
  | .writeOutput => "WriteOutput".toList
  | .jumpIfNonZero => "JumpIfNonZero".toList
  | .jumpIfZero => "JumpIfZero".toList
  | .lessThan => "LessThan".toList
  | .equals => "Equals".toList
  | .halt => "Halt".toList

/-- The handler a mnemonic names. -/
def handlerNamed (t : Text) : Option Handler :=
  (dispatchRom.map RomRow.handler).find? (fun h => handlerName h == t)

/-- A letter. -/
def isLetter (c : Char) : Bool :=
  (decide (65 ≤ c.toNat) && decide (c.toNat ≤ 90)) || (decide (97 ≤ c.toNat) && decide (c.toNat ≤ 122))

/-- A label: a letter followed by letters, digits or `_` (R108). -/
def isLabel : Text → Bool
  | [] => false
  | c :: cs => isLetter c && cs.all (fun d => isLetter d || isDigitChar d || d == '_')

/-- An operand expression read from text. -/
def readExpr (t : Text) : Option AsmExpr :=
  match numeralValue (trimWs t) with
  | some v => some (.num v)
  | none => if isLabel (trimWs t) then some (.label (trimWs t)) else none

/-- An operand read from text. -/
def readArg (t : Text) : Option AsmArg :=
  match trimWs t with
  | '#' :: e => (readExpr e).map AsmArg.imm
  | '[' :: e => if e.getLast? = some ']' then (readExpr e.dropLast).map AsmArg.cell else none
  | _ => none

/-- A list of operands separated by commas. -/
def readArgs (t : Text) : Option (List AsmArg) :=
  if (trimWs t).isEmpty then some [] else (splitAtEvery ',' t).mapM readArg

/-- A statement read from text without blanks around it. DESIGN CHOICE (log entry 18): a blank must stand between
the mnemonic and its first operand, on which R110 is silent, so the mnemonic is the text up to the first blank. -/
def readStmt (t : Text) : Option AsmStmt :=
  let name := t.takeWhile (fun c => !isWs c)
  let rest := t.dropWhile (fun c => !isWs c)
  if name = ".word".toList then
    ((splitAtEvery ',' rest).mapM (fun v => numeralValue (trimWs v))).map AsmStmt.word
  else
    match readArgs rest with
    | none => none
    | some args =>
      match handlerNamed name with
      | some h => some (.op h args)
      | none =>
        match args with
        | [s] => if name = "Jump".toList then some (.jump s) else none
        | [s, d] => if name = "Copy".toList then some (.copy s d) else none
        | _ => none

/-- The statement part of a line: nothing, or a statement. -/
def readStmtPart (t : Text) : Option (Option AsmStmt) :=
  if (trimWs t).isEmpty then some none else (readStmt (trimWs t)).map some

/-- A source line: `[label ':'] [statement] [';' comment]` (R108). -/
def readLine (t : Text) : Option AsmLine :=
  match splitAtEvery ':' (t.takeWhile (fun c => c != ';')) with
  | [st] => (readStmtPart st).map (fun x => ⟨none, x⟩)
  | [l, st] =>
    if isLabel (trimWs l) then (readStmtPart st).map (fun x => ⟨some (trimWs l), x⟩) else none
  | _ => none

/-- A source text, one line a line, assembled to its program image. -/
def assembleText (t : Text) : Option (List Int) :=
  ((splitAtEvery '\n' t).mapM readLine).bind assemble

end Sys2Proof.Machine
end

