-- ==== Sys2Proof/Machine/Instances.lean ====
section
/-! DEFINITION. Several instances (60_exceptions.md R321): each a State of its own, driven in any
interleaving, and the host that moves Words between them (40_host_interface.md R146). One instance steps
at a time (log entry 17). -/

namespace Sys2Proof.Machine

/-- The instances that exist, by the host's handle: a position in the list. -/
abbrev Instances := List State

/-- Construct (R133): one more instance, or InvalidProgramText and none. -/
def Instances.construct (b : Instances) (c : Config) (t : Text) : Except ErrorInfo Instances :=
  match loadProgram c t with
  | .ok image => .ok (b ++ [(State.resetWith c).load image])
  | .error e => .error e

/-- The host puts a command at the end of the command stream of instance `k`. -/
def Instances.issue (b : Instances) (k : Nat) (c : Command) : Instances :=
  b.modify k (fun s => { s with cmds := s.cmds ++ [c] })

/-- Instance `k` takes one step. -/
def Instances.stepAt (b : Instances) (k : Nat) : Host.Outcome Instances Fault Refusal :=
  match b[k]? with
  | none => .fault .noInstance
  | some s =>
    match step s with
    | .next t => .next (b.set k t)
    | .fault f => .fault f
    | .refused r => .refused r

/-- Chaining (R146): the host inputs to instance `dst` the Word that instance `src` answered last. -/
def Instances.pump (b : Instances) (src dst : Nat) : Instances :=
  match (b[src]?).bind (fun s => s.resps.getLast?) with
  | some (.word v) => b.issue dst (.input v)
  | _ => b

end Sys2Proof.Machine
end

