-- ==== Sys2Proof/Safety.lean ====
section
/-! DEFINITION. The terms that claims are stated in: what resolving a parameter gives or raises, said over
memory alone; which error a step must raise; the invariant of the machine; and what the host can see of a
poisoned instance. None of these is used by the machine. -/

namespace Sys2Proof.Machine

/-! ### Operands and destinations, as the manual words them -/

/-- Parameter `k` of the instruction at the PC is the cell `pc + 1 + k` (30_encoding.md R90), with content
`p`. -/
def State.ParamIs (s : State) (k : Nat) (p : Int) : Prop :=
  Memory.read s.mem ((s.pc : Int) + 1 + (k : Int)) = some p

/-- There is no cell for parameter `k`. -/
def State.ParamMissing (s : State) (k : Nat) : Prop :=
  Memory.read s.mem ((s.pc : Int) + 1 + (k : Int)) = none

/-- The operand of source parameter `k` in mode `m` is `v` (30_encoding.md R94, R101): immediate, the raw
value; position, the content of the cell that the raw value addresses. -/
def State.OperandIs (s : State) (k : Nat) (m : Mode) (v : Int) : Prop :=
  match m with
  | .immediate => s.ParamIs k v
  | .position => ∃ p, s.ParamIs k p ∧ Memory.read s.mem p = some v

/-- Resolving source parameter `k` raises `e` (41_dispatch_cycle.md R178). -/
def State.OperandFails (s : State) (k : Nat) (m : Mode) (e : ErrorInfo) : Prop :=
  (s.ParamMissing k ∧ e = .memoryOutOfBounds ((s.pc : Int) + 1 + (k : Int))) ∨
  (m = .position ∧ ∃ p, s.ParamIs k p ∧ Memory.read s.mem p = none ∧ e = .memoryOutOfBounds p)

/-- Destination parameter `k` is the address `d` (30_encoding.md R102). -/
def State.DestinationIs (s : State) (k : Nat) (d : Int) : Prop :=
  s.ParamIs k d ∧ 0 ≤ d ∧ d < (s.mem.length : Int)

/-- Resolving destination parameter `k` raises `e` (R178). -/
def State.DestinationFails (s : State) (k : Nat) (e : ErrorInfo) : Prop :=
  (s.ParamMissing k ∧ e = .memoryOutOfBounds ((s.pc : Int) + 1 + (k : Int))) ∨
  ∃ p, s.ParamIs k p ∧ ¬(0 ≤ p ∧ p < (s.mem.length : Int)) ∧ e = .memoryOutOfBounds p

/-- Parameter `k` of `i` resolves: a source parameter has its mode in `i.modes`, any other parameter is the
destination (30_encoding.md R95). -/
def State.Resolves (s : State) (i : Instr) (k : Nat) : Prop :=
  match i.modes[k]? with
  | some m => ∃ v, s.OperandIs k m v
  | none => ∃ d, s.DestinationIs k d

/-- Resolving parameter `k` of `i` raises `e`. -/
def State.ResolveFails (s : State) (i : Instr) (k : Nat) (e : ErrorInfo) : Prop :=
  match i.modes[k]? with
  | some m => s.OperandFails k m e
  | none => s.DestinationFails k e

/-- The first parameter of `i` that does not resolve raises `e` (R178: parameter 0 first). -/
def State.FirstFailure (s : State) (i : Instr) (e : ErrorInfo) : Prop :=
  ∃ k, k < i.params ∧ (∀ j, j < k → s.Resolves i j) ∧ s.ResolveFails i k e

/-- Every parameter of `i` resolves. -/
def State.AllResolve (s : State) (i : Instr) : Prop := ∀ k, k < i.params → s.Resolves i k

/-- `i` stores the Word `v` to the address `d`: `d` is its destination, and `v` is what its handler computes from
its resolved operands or takes from the input FIFO (42_arithmetic.md R200 to R202, 43_io.md R220, 45_compare.md
R260 and R261). The other instructions store nothing. -/
def State.Stores (s : State) (i : Instr) (d v : Int) : Prop :=
  match i with
  | .add ma mb =>
    s.DestinationIs 2 d ∧ ∃ a b, s.OperandIs 0 ma a ∧ s.OperandIs 1 mb b ∧ s.cfg.store (a + b) = .ok v
  | .multiply ma mb =>
    s.DestinationIs 2 d ∧ ∃ a b, s.OperandIs 0 ma a ∧ s.OperandIs 1 mb b ∧ s.cfg.store (a * b) = .ok v
  | .readInput => s.DestinationIs 0 d ∧ s.inq.head? = some v
  | .lessThan ma mb =>
    s.DestinationIs 2 d ∧ ∃ a b, s.OperandIs 0 ma a ∧ s.OperandIs 1 mb b ∧ v = if a < b then 1 else 0
  | .equals ma mb =>
    s.DestinationIs 2 d ∧ ∃ a b, s.OperandIs 0 ma a ∧ s.OperandIs 1 mb b ∧ v = if a = b then 1 else 0
  | .writeOutput _ => False
  | .jumpIfNonZero _ _ => False
  | .jumpIfZero _ _ => False
  | .halt => False

/-! ### Errors of a step -/

/-- The check of a handler of its own raises `e` (60_exceptions.md R310, item 6): ArithmeticOverflow, FifoOverflow,
or MemoryOutOfBounds for the target of a taken jump. -/
def State.HandlerRaises (s : State) (i : Instr) (e : ErrorInfo) : Prop :=
  match i with
  | .add ma mb =>
    ∃ a b, s.OperandIs 0 ma a ∧ s.OperandIs 1 mb b ∧ s.cfg.overflow = .trap ∧
      s.cfg.fits (a + b) = false ∧ e = .arithmeticOverflow (a + b)
  | .multiply ma mb =>
    ∃ a b, s.OperandIs 0 ma a ∧ s.OperandIs 1 mb b ∧ s.cfg.overflow = .trap ∧
      s.cfg.fits (a * b) = false ∧ e = .arithmeticOverflow (a * b)
  | .writeOutput ma =>
    ∃ a, s.OperandIs 0 ma a ∧ s.cfg.outDepth = some s.outq.length ∧ e = .fifoOverflow a
  | .jumpIfNonZero ma mb =>
    ∃ a b, s.OperandIs 0 ma a ∧ s.OperandIs 1 mb b ∧ a ≠ 0 ∧
      ¬(0 ≤ b ∧ b < (s.mem.length : Int)) ∧ e = .memoryOutOfBounds b
  | .jumpIfZero ma mb =>
    ∃ a b, s.OperandIs 0 ma a ∧ s.OperandIs 1 mb b ∧ a = 0 ∧
      ¬(0 ≤ b ∧ b < (s.mem.length : Int)) ∧ e = .memoryOutOfBounds b
  | .readInput => False
  | .lessThan _ _ => False
  | .equals _ _ => False
  | .halt => False

/-- The error a step must raise, in the order of 60_exceptions.md R310: the fetch; the decoder's
UnknownOpcode and InvalidAddressingMode; not on a ReadInput that blocks; the parameters in order; the
handler's own check. -/
def State.StepError (s : State) (e : ErrorInfo) : Prop :=
  (Memory.read s.mem (s.pc : Int) = none ∧ e = .memoryOutOfBounds (s.pc : Int)) ∨
  ∃ w, Memory.read s.mem (s.pc : Int) = some w ∧
    (decode w = .error e ∨
     ∃ i, decode w = .ok i ∧ ¬(i = .readInput ∧ s.inq = []) ∧
       (s.FirstFailure i e ∨ (s.AllResolve i ∧ s.HandlerRaises i e)))

/-- Executing `i` raises `e`: the next state has the fault record (60_exceptions.md R308), with the PC of
the instruction. Nothing is said of the rest of that state (R313). -/
def Raises (i : Instr) (s : State) (e : ErrorInfo) : Prop :=
  ∃ t, exec i s = .next t ∧ t.fault = some ⟨e, some s.pc⟩

/-- The step raises `e`. -/
def StepRaises (s : State) (e : ErrorInfo) : Prop :=
  ∃ t, step s = .next t ∧ t.fault = some ⟨e, some s.pc⟩

/-- `k` steps, stopping at the first fault or refusal: `Host.Core.run` of the machine, at its own types. -/
def stepN : Nat → State → Host.Outcome State Fault Refusal
  | 0, s => .next s
  | k + 1, s =>
    match step s with
    | .next t => stepN k t
    | .fault f => .fault f
    | .refused r => .refused r

/-! ### Commands -/

/-- The block is between Runs, holds an instance and is about to take the command `c`, with `rest` after it
(40_host_interface.md R131). -/
def State.Takes (s : State) (c : Command) (rest : List Command) : Prop :=
  s.inRun = false ∧ s.image ≠ [] ∧ s.cmds = c :: rest

/-- The state after a command is taken and answered with nothing else changed. -/
def State.answered (s : State) (rest : List Command) (r : Response) : State :=
  { s with cmds := rest, resps := s.resps ++ [r] }

/-- A host command ends with the error `e`: it is answered and recorded with no PC (60_exceptions.md R308).
Nothing is said of the rest of that state (R313). -/
def CommandRaises (s : State) (e : ErrorInfo) : Prop :=
  ∃ t, step s = .next t ∧ t.fault = some ⟨e, none⟩ ∧ t.resps = s.resps ++ [.error ⟨e, none⟩]

/-! ### Invariant -/

/-- What every state a run can reach satisfies (10_state.md R32 to R43, R47). Of memory, PC and the FIFOs it
speaks only while the instance is not poisoned: 60_exceptions.md R313 lets no claim rest on them after an error. -/
structure State.Inv (s : State) : Prop where
  /-- The parameters are legal (00_scope.md R7). -/
  cfg_legal : s.cfg.legal = true
  /-- The image has at most MEM_MAX cells (40_host_interface.md R133), each a Word (R43). -/
  image_size : withinCap s.cfg.memMax s.image.length = true
  image_words : s.image.all s.cfg.fits = true
  /-- Memory has its form: at most MEM_MAX cells, each a Word (R32). -/
  mem_wf : s.fault = none → Memory.wf s.cfg s.mem = true
  /-- Memory has as many cells as the image: N never changes (R32). -/
  mem_size : s.fault = none → s.mem.length = s.image.length
  /-- PC is in [0, N] (R35). -/
  pc_range : s.fault = none → s.pc ≤ s.mem.length
  /-- The input FIFO holds Words, at most IN_DEPTH (R39, R41). -/
  inq_words : s.fault = none → s.inq.all s.cfg.fits = true
  inq_depth : s.fault = none → withinCap s.cfg.inDepth s.inq.length = true
  /-- The output FIFO holds Words, at most OUT_DEPTH (R40, R41). -/
  outq_words : s.fault = none → s.outq.all s.cfg.fits = true
  outq_depth : s.fault = none → withinCap s.cfg.outDepth s.outq.length = true
  /-- Before Construct the execution state, the FIFOs and the fault record are at their reset values (log entry 3). -/
  unbuilt : s.image = [] →
    s.state = .initialized ∧ s.inq = [] ∧ s.outq = [] ∧ s.fault = none
  /-- InvalidProgramText is never recorded (R42, 60_exceptions.md R301). -/
  fault_kind : ∀ n pc, s.fault ≠ some ⟨.invalidProgramText n, pc⟩

/-- Every pending command is a request of the port: its value argument is a Word. -/
def State.CommandsWellTyped (s : State) : Prop := ∀ c ∈ s.cmds, c.badWord s.cfg = none

/-! ### What the host can see -/

/-- Two states that no host command can tell apart at this moment: equal in everything but, when they are
poisoned, memory, PC, the FIFOs and the execution-state register (60_exceptions.md R313). -/
def State.SameToHost (s t : State) : Prop :=
  s.cfg = t.cfg ∧ s.image = t.image ∧ s.fault = t.fault ∧ s.cmds = t.cmds ∧ s.resps = t.resps ∧
    (s.fault = none → s = t)

/-- Two outcomes that no host command can tell apart. -/
def SameOutcome (o p : Host.Outcome State Fault Refusal) : Prop :=
  match o, p with
  | .next s, .next t => s.SameToHost t
  | .fault f, .fault g => f = g
  | .refused r, .refused q => r = q
  | _, _ => False

/-! ### Program text -/

/-- The token grammar of 40_host_interface.md R134, with the token's value: `ws* sign? digit+ ws*`. -/
def TokenHasValue (c : Config) (t : Text) (v : Int) : Prop :=
  ∃ before after digits : Text, ∃ neg : Bool,
    t = before ++ (if neg then ['-'] else []) ++ digits ++ after ∧
    before.all isWs = true ∧ after.all isWs = true ∧
    (c.textWs = false → before = [] ∧ after = []) ∧
    digits ≠ [] ∧ digits.all isDigitChar = true ∧
    v = (if neg then -1 else 1) * ((digits.foldl (fun n d => 10 * n + (d.toNat - 48)) 0 : Nat) : Int)

/-- A token the grammar accepts, with a value that fits a Word (40_host_interface.md R134). -/
def TokenGood (c : Config) (t : Text) : Prop := ∃ v, TokenHasValue c t v ∧ c.fits v = true

end Sys2Proof.Machine
end

