-- ==== Sys2Proof/Certificates/Slice0/Obligations.lean ====
section
/-! DEFINITION. The statements for the provers, in the terms of Safety.lean. Where a rule rests on a decision of
92_eei_decisions.md the docstring names it. -/

open Sys2Proof Sys2Proof.Machine

/-! ### Encoding -/

/-- Words written out digit by digit from 30_encoding.md R91, R96, R98, R103 and 95_test_vectors.md (part 2.1)
decode to the instructions, or are refused with the errors, that they stand for. A sanity statement. -/
def Obligations.SpecWordsDecode : Prop :=
  decode 1002 = .ok (.multiply .position .immediate) ∧
  decode 101 = .ok (.add .immediate .position) ∧
  decode 10001 = .ok (.add .position .position) ∧
  decode 103 = .ok .readInput ∧
  decode 104 = .ok (.writeOutput .immediate) ∧
  decode 1105 = .ok (.jumpIfNonZero .immediate .immediate) ∧
  decode 1006 = .ok (.jumpIfZero .position .immediate) ∧
  decode 107 = .ok (.lessThan .immediate .position) ∧
  decode 1108 = .ok (.equals .immediate .immediate) ∧
  decode 199 = .ok .halt ∧
  decode (-99) = .error (.unknownOpcode (-99)) ∧
  decode 98 = .error (.unknownOpcode 98) ∧
  decode 2101 = .error (.invalidAddressingMode 1 2101)

/-- The dispatch ROM's contents (10_state.md R44, the table), and no row for any other opcode. -/
def Obligations.DispatchRomContents : Prop :=
  (dispatchRom.map fun r => (r.opcode, r.len, r.adv, r.sources, r.dest)) =
    [(1, 4, 4, [0, 1], some 2), (2, 4, 4, [0, 1], some 2), (3, 2, 2, [], some 0), (4, 2, 2, [0], none),
      (5, 3, 0, [0, 1], none), (6, 3, 0, [0, 1], none), (7, 4, 4, [0, 1], some 2),
      (8, 4, 4, [0, 1], some 2), (99, 1, 1, [], none)] ∧
  ∀ op, romLookup op = none ↔ op ∉ [1, 2, 3, 4, 5, 6, 7, 8, 99]

/-- 30_encoding.md R92, for every word and instruction: a word decodes to `i` exactly when it is not negative,
its opcode is that of `i`, and each source mode of `i` is the digit of the flags, which is the digit of the
word two places up. -/
def Obligations.DecodeReadsOpcodeAndFlags : Prop :=
  ∀ (w : Int) (i : Instr),
    (decode w = .ok i ↔
      0 ≤ w ∧ w.toNat % 100 = i.handler.row.opcode ∧
        ∀ k m, i.modes[k]? = some m → digit (w.toNat / 100) k = m.digit) ∧
    ∀ k, digit (w.toNat / 100) k = digit w.toNat (k + 2)

/-- 60_exceptions.md R302, 30_encoding.md R93 (decision D3) and R104: which words raise UnknownOpcode, in the
decoder and in a step, whatever follows the word in memory. -/
def Obligations.UnknownOpcodeExactly : Prop :=
  ∀ w : Int,
    (decode w = .error (.unknownOpcode w) ↔ w < 0 ∨ w % 100 = 0 ∨ (9 ≤ w % 100 ∧ w % 100 ≤ 98)) ∧
    ∀ s : State, s.state = .running → s.fault = none → Memory.read s.mem (s.pc : Int) = some w →
      (w < 0 ∨ w % 100 = 0 ∨ (9 ≤ w % 100 ∧ w % 100 ≤ 98)) → StepRaises s (.unknownOpcode w)

/-- 60_exceptions.md R305 and 30_encoding.md R97 (decision D4): InvalidAddressingMode is raised for the lowest
source parameter whose mode digit is 2 to 9, in the decoder and in a step, whatever follows the word in
memory. -/
def Obligations.InvalidAddressingModeExactly : Prop :=
  ∀ (w : Int) (k : Nat),
    (decode w = .error (.invalidAddressingMode k w) ↔
      0 ≤ w ∧ ∃ r ∈ dispatchRom, r.opcode = w.toNat % 100 ∧ k ∈ r.sources ∧
        2 ≤ digit w.toNat (k + 2) ∧ ∀ j ∈ r.sources, j < k → digit w.toNat (j + 2) ≤ 1) ∧
    ∀ s : State, s.state = .running → s.fault = none → Memory.read s.mem (s.pc : Int) = some w →
      decode w = .error (.invalidAddressingMode k w) → StepRaises s (.invalidAddressingMode k w)

/-- 30_encoding.md R96 and R98 (decision D5): the mode digit of a destination and the digits that belong to no
parameter have no effect. Two words with the same opcode and the same source mode digits decode alike. -/
def Obligations.UnexaminedDigitsIgnored : Prop :=
  ∀ (w v : Int) (r : RomRow), 0 ≤ w → 0 ≤ v → r ∈ dispatchRom → w.toNat % 100 = r.opcode →
    v.toNat % 100 = r.opcode → (∀ k ∈ r.sources, digit w.toNat (k + 2) = digit v.toNat (k + 2)) →
    ∀ i, decode w = .ok i ↔ decode v = .ok i

/-- Decode and encode agree, for every instruction with every parameter cell its format admits, and with
anything after it in memory. -/
def Obligations.DecodeOfEncode : Prop :=
  ∀ (c : Config) (i : Instr) (ps rest : List Int), i.wf c ps = true →
    decodeCells (encode i ps ++ rest) = .ok (i, ps, rest)

/-- The canonical word of an instruction is the least word that decodes to it, and is at most 1108
(30_encoding.md R107 is marked as derived). -/
def Obligations.CanonicalWordIsLeast : Prop :=
  ∀ i : Instr, (encodeWord i ≤ 1108 ∧ decode (encodeWord i) = .ok i) ∧
    ∀ w, decode w = .ok i → encodeWord i ≤ w

/-! ### The step -/

/-- Inside a Run a step runs the decoded instruction: exec of it, and then, when the Run has ended, the answer
to the Run command, which is the recorded error or the state the Run ended in. -/
def Obligations.StepRunsDecodedInstruction : Prop :=
  ∀ (s t : State) (w : Int) (i : Instr), s.state = .running → s.fault = none →
    Memory.read s.mem (s.pc : Int) = some w → decode w = .ok i → exec i s = .next t →
    (t.fault = none → t.state = .running → step s = .next t) ∧
    (t.fault = none → t.state ≠ .running →
      step s = .next { t with resps := t.resps ++ [.state t.state] }) ∧
    (∀ f, t.fault = some f → step s = .next { t with resps := t.resps ++ [.error f] })

/-- 41_dispatch_cycle.md R173: the fetch outside [0, N). -/
def Obligations.FetchOutOfRangeRaises : Prop :=
  ∀ s : State, s.state = .running → s.fault = none → ¬((s.pc : Int) < (s.mem.length : Int)) →
    StepRaises s (.memoryOutOfBounds (s.pc : Int))

/-- A step inside a Run raises an error exactly when `StepError` says so: the first one of the order of
60_exceptions.md R310 (decision D6), so at most one, and none when nothing fails. In it, 41_dispatch_cycle.md R178
(decisions D6 and D7): parameters one at a time, from parameter 0 up, every source parameter resolved. -/
def Obligations.StepRaisesExactlyFirstError : Prop :=
  ∀ (s : State) (e : ErrorInfo), s.state = .running → s.fault = none →
    (StepRaises s e ↔ s.StepError e)

/-! ### Instructions -/

/-- 42_arithmetic.md R201, whole: encoding and canonical words, result, PC, overflow under both settings of
OVERFLOW, and the errors of the step. The result statement is the completion statement of Add. -/
def Obligations.AddStoresSum : Prop :=
  ∀ (s : State) (ma mb : Mode),
    (∀ w, decode w = .ok (.add ma mb) ↔
      0 ≤ w ∧ w.toNat % 100 = 1 ∧ digit w.toNat 2 = ma.digit ∧ digit w.toNat 3 = mb.digit) ∧
    (∀ a b d, s.OperandIs 0 ma a → s.OperandIs 1 mb b → s.DestinationIs 2 d →
      (s.cfg.fits (a + b) = true →
        exec (.add ma mb) s =
          .next { s with mem := Memory.write s.mem d (a + b), pc := s.pc + 4 }) ∧
      (s.cfg.fits (a + b) = false → s.cfg.overflow = .trap →
        Raises (.add ma mb) s (.arithmeticOverflow (a + b))) ∧
      (∀ n v, s.cfg.legal = true → s.cfg.wordBits = some n → s.cfg.fits (a + b) = false →
        s.cfg.overflow = .wrap → s.cfg.fits v = true →
        v % ((2 ^ n : Nat) : Int) = (a + b) % ((2 ^ n : Nat) : Int) →
        exec (.add ma mb) s =
          .next { s with mem := Memory.write s.mem d v, pc := s.pc + 4 })) ∧
    (∀ e, s.FirstFailure (.add ma mb) e → Raises (.add ma mb) s e) ∧
    encodeWord (.add ma mb) = 1 + 100 * (ma.digit : Int) + 1000 * (mb.digit : Int)

/-- 42_arithmetic.md R202, whole, as for Add. The completion statement of Multiply. -/
def Obligations.MultiplyStoresProduct : Prop :=
  ∀ (s : State) (ma mb : Mode),
    (∀ w, decode w = .ok (.multiply ma mb) ↔
      0 ≤ w ∧ w.toNat % 100 = 2 ∧ digit w.toNat 2 = ma.digit ∧ digit w.toNat 3 = mb.digit) ∧
    (∀ a b d, s.OperandIs 0 ma a → s.OperandIs 1 mb b → s.DestinationIs 2 d →
      (s.cfg.fits (a * b) = true →
        exec (.multiply ma mb) s =
          .next { s with mem := Memory.write s.mem d (a * b), pc := s.pc + 4 }) ∧
      (s.cfg.fits (a * b) = false → s.cfg.overflow = .trap →
        Raises (.multiply ma mb) s (.arithmeticOverflow (a * b))) ∧
      (∀ n v, s.cfg.legal = true → s.cfg.wordBits = some n → s.cfg.fits (a * b) = false →
        s.cfg.overflow = .wrap → s.cfg.fits v = true →
        v % ((2 ^ n : Nat) : Int) = (a * b) % ((2 ^ n : Nat) : Int) →
        exec (.multiply ma mb) s =
          .next { s with mem := Memory.write s.mem d v, pc := s.pc + 4 })) ∧
    (∀ e, s.FirstFailure (.multiply ma mb) e → Raises (.multiply ma mb) s e) ∧
    encodeWord (.multiply ma mb) = 2 + 100 * (ma.digit : Int) + 1000 * (mb.digit : Int)

/-- 43_io.md R220, whole, with the pre-check of 41_dispatch_cycle.md R177: on an empty input FIFO it blocks with
nothing else changed, whatever its parameter cell is; otherwise the oldest entry is popped and written. The
completion statement of ReadInput. -/
def Obligations.ReadInputPopsOrBlocks : Prop :=
  ∀ s : State,
    (∀ w, decode w = .ok .readInput ↔ 0 ≤ w ∧ w.toNat % 100 = 3) ∧ encodeWord .readInput = 3 ∧
    (s.inq = [] → exec .readInput s = .next { s with state := .blockedOnInput }) ∧
    (∀ v rest, s.inq = v :: rest →
      (∀ d, s.DestinationIs 0 d →
        exec .readInput s =
          .next { s with mem := Memory.write s.mem d v, inq := rest, pc := s.pc + 2 }) ∧
      (∀ e, s.DestinationFails 0 e → Raises .readInput s e))

/-- 43_io.md R221, whole (FifoOverflow is decision D13). The completion statement of WriteOutput. -/
def Obligations.WriteOutputPushes : Prop :=
  ∀ (s : State) (ma : Mode),
    (∀ w, decode w = .ok (.writeOutput ma) ↔
      0 ≤ w ∧ w.toNat % 100 = 4 ∧ digit w.toNat 2 = ma.digit) ∧
    (∀ a, s.OperandIs 0 ma a →
      (s.cfg.outDepth ≠ some s.outq.length →
        exec (.writeOutput ma) s = .next { s with outq := s.outq ++ [a], pc := s.pc + 2 }) ∧
      (s.cfg.outDepth = some s.outq.length → Raises (.writeOutput ma) s (.fifoOverflow a))) ∧
    (∀ e, s.OperandFails 0 ma e → Raises (.writeOutput ma) s e) ∧
    encodeWord (.writeOutput ma) = 4 + 100 * (ma.digit : Int)

/-- 44_jumps.md R240, whole (when the target is checked is decision D9). The completion statement of
JumpIfNonZero. -/
def Obligations.JumpIfNonZeroJumps : Prop :=
  ∀ (s : State) (ma mb : Mode),
    (∀ w, decode w = .ok (.jumpIfNonZero ma mb) ↔
      0 ≤ w ∧ w.toNat % 100 = 5 ∧ digit w.toNat 2 = ma.digit ∧ digit w.toNat 3 = mb.digit) ∧
    (∀ a b, s.OperandIs 0 ma a → s.OperandIs 1 mb b →
      (a ≠ 0 → 0 ≤ b → b < (s.mem.length : Int) →
        exec (.jumpIfNonZero ma mb) s = .next { s with pc := b.toNat }) ∧
      (a ≠ 0 → ¬(0 ≤ b ∧ b < (s.mem.length : Int)) →
        Raises (.jumpIfNonZero ma mb) s (.memoryOutOfBounds b)) ∧
      (a = 0 → exec (.jumpIfNonZero ma mb) s = .next { s with pc := s.pc + 3 })) ∧
    (∀ e, s.FirstFailure (.jumpIfNonZero ma mb) e → Raises (.jumpIfNonZero ma mb) s e) ∧
    encodeWord (.jumpIfNonZero ma mb) = 5 + 100 * (ma.digit : Int) + 1000 * (mb.digit : Int)

/-- 44_jumps.md R241, whole, as for JumpIfNonZero with the condition reversed. The completion statement of
JumpIfZero. -/
def Obligations.JumpIfZeroJumps : Prop :=
  ∀ (s : State) (ma mb : Mode),
    (∀ w, decode w = .ok (.jumpIfZero ma mb) ↔
      0 ≤ w ∧ w.toNat % 100 = 6 ∧ digit w.toNat 2 = ma.digit ∧ digit w.toNat 3 = mb.digit) ∧
    (∀ a b, s.OperandIs 0 ma a → s.OperandIs 1 mb b →
      (a = 0 → 0 ≤ b → b < (s.mem.length : Int) →
        exec (.jumpIfZero ma mb) s = .next { s with pc := b.toNat }) ∧
      (a = 0 → ¬(0 ≤ b ∧ b < (s.mem.length : Int)) →
        Raises (.jumpIfZero ma mb) s (.memoryOutOfBounds b)) ∧
      (a ≠ 0 → exec (.jumpIfZero ma mb) s = .next { s with pc := s.pc + 3 })) ∧
    (∀ e, s.FirstFailure (.jumpIfZero ma mb) e → Raises (.jumpIfZero ma mb) s e) ∧
    encodeWord (.jumpIfZero ma mb) = 6 + 100 * (ma.digit : Int) + 1000 * (mb.digit : Int)

/-- 45_compare.md R260, whole: signed comparison. The completion statement of LessThan. -/
def Obligations.LessThanStoresTruth : Prop :=
  ∀ (s : State) (ma mb : Mode),
    (∀ w, decode w = .ok (.lessThan ma mb) ↔
      0 ≤ w ∧ w.toNat % 100 = 7 ∧ digit w.toNat 2 = ma.digit ∧ digit w.toNat 3 = mb.digit) ∧
    (∀ a b d, s.OperandIs 0 ma a → s.OperandIs 1 mb b → s.DestinationIs 2 d →
      (a < b → exec (.lessThan ma mb) s =
        .next { s with mem := Memory.write s.mem d 1, pc := s.pc + 4 }) ∧
      (¬ a < b → exec (.lessThan ma mb) s =
        .next { s with mem := Memory.write s.mem d 0, pc := s.pc + 4 })) ∧
    (∀ e, s.FirstFailure (.lessThan ma mb) e → Raises (.lessThan ma mb) s e) ∧
    encodeWord (.lessThan ma mb) = 7 + 100 * (ma.digit : Int) + 1000 * (mb.digit : Int)

/-- 45_compare.md R261, whole. The completion statement of Equals. -/
def Obligations.EqualsStoresTruth : Prop :=
  ∀ (s : State) (ma mb : Mode),
    (∀ w, decode w = .ok (.equals ma mb) ↔
      0 ≤ w ∧ w.toNat % 100 = 8 ∧ digit w.toNat 2 = ma.digit ∧ digit w.toNat 3 = mb.digit) ∧
    (∀ a b d, s.OperandIs 0 ma a → s.OperandIs 1 mb b → s.DestinationIs 2 d →
      (a = b → exec (.equals ma mb) s =
        .next { s with mem := Memory.write s.mem d 1, pc := s.pc + 4 }) ∧
      (a ≠ b → exec (.equals ma mb) s =
        .next { s with mem := Memory.write s.mem d 0, pc := s.pc + 4 })) ∧
    (∀ e, s.FirstFailure (.equals ma mb) e → Raises (.equals ma mb) s e) ∧
    encodeWord (.equals ma mb) = 8 + 100 * (ma.digit : Int) + 1000 * (mb.digit : Int)

/-- 46_halt.md R280 (decision D8), for both values of HALT_PC_ADVANCE: it always succeeds, and the Run it ends
answers `Halted`. The completion statement of Halt. -/
def Obligations.HaltStopsRun : Prop :=
  ∀ s : State,
    (∀ w, decode w = .ok .halt ↔ 0 ≤ w ∧ w.toNat % 100 = 99) ∧ encodeWord .halt = 99 ∧
    exec .halt s = .next { s with state := .halted, pc := s.pc + s.cfg.haltPcAdvance.val } ∧
    (s.state = .running → s.fault = none →
      (∃ w, Memory.read s.mem (s.pc : Int) = some w ∧ decode w = .ok .halt) →
      step s = .next { s with
        state := .halted
        pc := s.pc + s.cfg.haltPcAdvance.val
        resps := s.resps ++ [.state .halted] })

/-- 42_arithmetic.md R200 (decisions D1 and D2): the three cases of `Store`, and the wrapped Word is unique. -/
def Obligations.StoreLaw : Prop :=
  ∀ (c : Config) (r : Int), c.legal = true →
    (c.wordBits = none → c.fits r = true) ∧
    (∀ n, c.wordBits = some n →
      (c.fits r = true ↔ -((2 ^ (n - 1) : Nat) : Int) ≤ r ∧ r ≤ ((2 ^ (n - 1) : Nat) : Int) - 1)) ∧
    (c.fits r = true → c.store r = .ok r) ∧
    (c.fits r = false → c.overflow = .trap → c.store r = .error (.arithmeticOverflow r)) ∧
    (∀ n, c.wordBits = some n → c.fits r = false → c.overflow = .wrap →
      ∃ v, c.store r = .ok v ∧ c.fits v = true ∧
        v % ((2 ^ n : Nat) : Int) = r % ((2 ^ n : Nat) : Int) ∧
        ∀ u, c.fits u = true → u % ((2 ^ n : Nat) : Int) = r % ((2 ^ n : Nat) : Int) → u = v)

/-! ### Frames -/

/-- Frame of Add, Multiply, LessThan and Equals that raise nothing: only PC and the destination's cell change,
and the destination is parameter 2's, read before the write. -/
def Obligations.FourCellFrame : Prop :=
  ∀ (s t : State) (i : Instr) (ma mb : Mode),
    i = .add ma mb ∨ i = .multiply ma mb ∨ i = .lessThan ma mb ∨ i = .equals ma mb →
    exec i s = .next t → s.fault = none → t.fault = none →
    (∃ d, s.DestinationIs 2 d) ∧
    (∀ d, s.DestinationIs 2 d → ∀ a, a ≠ d → Memory.read t.mem a = Memory.read s.mem a) ∧
    t.mem.length = s.mem.length ∧ t.pc = s.pc + 4 ∧ t.state = s.state ∧ t.inq = s.inq ∧
    t.outq = s.outq ∧ t.image = s.image ∧ t.cfg = s.cfg ∧ t.cmds = s.cmds ∧ t.resps = s.resps

/-- Frame of WriteOutput, both jumps and Halt that raise nothing: no cell of memory, no entry of the input FIFO
and no image cell changes; only WriteOutput adds to the output FIFO, and only Halt changes the
execution-state register. -/
def Obligations.NonStoringFrame : Prop :=
  ∀ (s t : State) (i : Instr) (ma mb : Mode),
    i = .writeOutput ma ∨ i = .jumpIfNonZero ma mb ∨ i = .jumpIfZero ma mb ∨ i = .halt →
    exec i s = .next t → s.fault = none → t.fault = none →
    (∀ a, Memory.read t.mem a = Memory.read s.mem a) ∧ t.mem.length = s.mem.length ∧
    t.inq = s.inq ∧ t.image = s.image ∧ t.cfg = s.cfg ∧ t.cmds = s.cmds ∧ t.resps = s.resps ∧
    (i ≠ .writeOutput ma → t.outq = s.outq) ∧ (i ≠ .halt → t.state = s.state)

/-- Frame of ReadInput that raises nothing: the destination's cell, the input FIFO's head and PC change, or, when
it blocks, the execution-state register alone. -/
def Obligations.ReadInputFrame : Prop :=
  ∀ s t : State, exec .readInput s = .next t → s.fault = none → t.fault = none →
    t.outq = s.outq ∧ t.image = s.image ∧ t.cfg = s.cfg ∧ t.cmds = s.cmds ∧ t.resps = s.resps ∧
    t.mem.length = s.mem.length ∧
    (s.inq = [] → t.mem = s.mem ∧ t.inq = s.inq ∧ t.pc = s.pc) ∧
    (s.inq ≠ [] → t.state = s.state ∧ t.pc = s.pc + 2 ∧ t.inq = s.inq.tail ∧
      (∃ d, s.DestinationIs 0 d) ∧
      ∀ d, s.DestinationIs 0 d → ∀ a, a ≠ d → Memory.read t.mem a = Memory.read s.mem a)

/-! ### Memory -/

/-- 20_memory.md R63: every access checks its address first; outside [0, N) it raises and writes nothing, and
inside it reads or writes that one cell. -/
def Obligations.AccessesAreBoundChecked : Prop :=
  ∀ (s : State) (a v : Int),
    (¬(0 ≤ a ∧ a < (s.mem.length : Int)) →
      s.memRead a = .error (.memoryOutOfBounds a) ∧ s.memWrite a v = .error (.memoryOutOfBounds a)) ∧
    (0 ≤ a ∧ a < (s.mem.length : Int) →
      (∃ x, s.mem[a.toNat]? = some x ∧ s.memRead a = .ok x) ∧
      ∃ t, s.memWrite a v = .ok t ∧ t.memRead a = .ok v ∧
        (∀ b, b ≠ a → t.memRead b = s.memRead b) ∧ t = { s with mem := t.mem })

/-- A write is seen by the very next fetch and parameter read of its cell (20_memory.md R76, marked as derived), for
each of the five instructions that write memory: the Word its handler computes, or ReadInput takes, is the one
decoded when the destination is the next instruction's cell, and its parameter when it is a cell after that.
Wherever the destination is, the instruction's own word included, PC advances by the ADV that was decoded, and
the operands are those read before the write (R77, marked as derived). -/
def Obligations.WrittenWordIsFetchedNext : Prop :=
  ∀ (s : State) (i : Instr) (d v : Int), s.Stores i d v →
    ∃ t, exec i s = .next t ∧ t.pc = s.pc + i.handler.row.adv ∧ Memory.read t.mem d = some v ∧
      (d = (t.pc : Int) → t.fetchDecode = decode v) ∧
      ∀ k : Nat, d = (t.pc : Int) + 1 + (k : Int) → t.ParamIs k v

/-! ### Invariants and whole-machine rules -/

/-- The reset state, in every legal configuration, satisfies the invariant (the reset values before Construct are
the model's choice, log entry 3). -/
def Obligations.ResetSatisfiesInvariant : Prop :=
  State.reset.Inv ∧ ∀ c : Config, c.legal = true → (State.resetWith c).Inv

/-- Every step keeps the invariant: legal parameters, an image of Words, no InvalidProgramText recorded; and, while
the instance is not poisoned, N cells of Words, PC in [0, N], FIFOs of Words within their depths. -/
def Obligations.StepKeepsInvariant : Prop :=
  ∀ s t : State, s.Inv → step s = .next t → t.Inv

/-- The step never faults and never refuses on an instance whose pending commands are requests of the port; and
before Construct it stops only where log entry 6 says. -/
def Obligations.StepNeverStops : Prop :=
  ∀ s : State, s.Inv → s.CommandsWellTyped →
    (s.image ≠ [] ∨ s.cmds = [] ∨ ∃ txt rest, s.cmds = .construct txt :: rest) → ∃ t, step s = .next t

/-- PC never holds a value that its register could not (00_scope.md R7, PC_BITS; decision D22). -/
def Obligations.PcFitsItsRegister : Prop :=
  ∀ (s t : State) (b : Nat), s.Inv → s.cfg.pcBits = some b → step s = .next t → t.fault = none →
    t.pc < 2 ^ b

/-- 41_dispatch_cycle.md R171: how a Run ends. A step inside a Run goes on with no answer; or blocks; or halts; or
raises; and the last three answer the Run command. -/
def Obligations.RunEndsInThreeWays : Prop :=
  ∀ s t : State, s.state = .running → s.fault = none → step s = .next t →
    (t.state = .running ∧ t.fault = none ∧ t.resps = s.resps) ∨
    (t.state = .blockedOnInput ∧ t.fault = none ∧ s.inq = [] ∧
      s.fetchDecode = .ok .readInput ∧ t.resps = s.resps ++ [.state .blockedOnInput]) ∨
    (t.state = .halted ∧ t.fault = none ∧ s.fetchDecode = .ok .halt ∧
      t.resps = s.resps ++ [.state .halted]) ∨
    (∃ f, t.fault = some f ∧ f.pc = some s.pc ∧
      t.resps = s.resps ++ [.error f])

/-- 10_state.md R38: the writers of the execution-state register. Between Runs only Construct, Reboot and Run write
it; inside one only a blocking ReadInput and Halt do. This and the other statements on who writes what speak of
steps after which the instance is not poisoned (60_exceptions.md R313). -/
def Obligations.ExecutionStateWriters : Prop :=
  ∀ s t : State, step s = .next t → t.fault = none → t.state ≠ s.state →
    (s.inRun = true ∧ t.state = .blockedOnInput ∧ s.inq = [] ∧ s.fetchDecode = .ok .readInput) ∨
    (s.inRun = true ∧ t.state = .halted ∧ s.fetchDecode = .ok .halt) ∨
    (s.inRun = false ∧ t.state = .running ∧ s.fault = none ∧ s.cmds.head? = some .run) ∨
    (s.inRun = false ∧ t.state = .initialized ∧
      (s.cmds.head? = some .reboot ∨ ∃ txt, s.cmds.head? = some (.construct txt)))

/-- 40_host_interface.md R131 (decision D12): while a Run is in progress the host has no move. What a step does
inside a Run does not depend on the pending commands, and takes none of them. -/
def Obligations.HostHasNoMoveDuringRun : Prop :=
  ∀ (s : State) (cs : List Command), s.state = .running → s.fault = none →
    ∃ t, step s = .next t ∧ t.cmds = s.cmds ∧
      step { s with cmds := cs } = .next { t with cmds := cs }

/-- 10_state.md R43: the image is written by Construct alone; and no step writes the configuration (R46). -/
def Obligations.ImageWrittenOnlyByConstruct : Prop :=
  ∀ s t : State, step s = .next t →
    t.cfg = s.cfg ∧
    (t.image = s.image ∨
      (s.inRun = false ∧ ∃ txt rest img, s.cmds = .construct txt :: rest ∧
        loadProgram s.cfg txt = .ok img ∧ t.image = img))

/-- 10_state.md R33: the writers of memory: Construct and Reboot, which load the image; the destination write of
Add, Multiply, ReadInput, LessThan and Equals (`State.Stores`: the destination is parameter 2, or 0 for ReadInput,
and the Word is the handler's result, or the head of the input FIFO); WriteMemory. -/
def Obligations.MemoryWriters : Prop :=
  ∀ s t : State, step s = .next t → t.fault = none → t.mem ≠ s.mem →
    (s.inRun = true ∧ ∃ i d v, s.fetchDecode = .ok i ∧ s.Stores i d v ∧ t.mem = Memory.write s.mem d v) ∨
    (s.inRun = false ∧ ∃ a v, s.cmds.head? = some (.writeMemory a v) ∧ t.mem = Memory.write s.mem a v) ∨
    (s.inRun = false ∧ t.mem = t.image ∧
      (s.cmds.head? = some .reboot ∨ ∃ txt, s.cmds.head? = some (.construct txt)))

/-- 10_state.md R36: the writers of PC: the cycle, and Construct and Reboot, which set it to 0. -/
def Obligations.PcWriters : Prop :=
  ∀ s t : State, step s = .next t → t.fault = none → t.pc ≠ s.pc →
    s.inRun = true ∨
    (s.inRun = false ∧ t.pc = 0 ∧
      (s.cmds.head? = some .reboot ∨ ∃ txt, s.cmds.head? = some (.construct txt)))

/-- The FIFOs (10_state.md R39, R40 and 41_dispatch_cycle.md R185): the input FIFO changes only by Input at the
tail, ReadInput at the head, and Reboot or Construct, which empty it; the output FIFO only by WriteOutput at
the tail, Output at the head, and Reboot or Construct. Run, a block and a Halt keep both. -/
def Obligations.FifoWriters : Prop :=
  ∀ s t : State, step s = .next t → t.fault = none →
    (t.inq = s.inq ∨
      (s.inRun = true ∧ s.fetchDecode = .ok .readInput ∧ ∃ v, s.inq = v :: t.inq) ∨
      (s.inRun = false ∧ ∃ v, s.cmds.head? = some (.input v) ∧ t.inq = s.inq ++ [v]) ∨
      (s.inRun = false ∧ t.inq = [] ∧
        (s.cmds.head? = some .reboot ∨ ∃ txt, s.cmds.head? = some (.construct txt)))) ∧
    (t.outq = s.outq ∨
      (s.inRun = true ∧ ∃ ma v, s.fetchDecode = .ok (.writeOutput ma) ∧ t.outq = s.outq ++ [v]) ∨
      (s.inRun = false ∧ s.cmds.head? = some .output ∧ ∃ v, s.outq = v :: t.outq) ∨
      (s.inRun = false ∧ t.outq = [] ∧
        (s.cmds.head? = some .reboot ∨ ∃ txt, s.cmds.head? = some (.construct txt))))

/-! ### Host commands -/

/-- 40_host_interface.md R135 (decision D25): Reboot, between Runs, poisoned or not. -/
def Obligations.RebootRestoresImage : Prop :=
  ∀ (s : State) (rest : List Command), s.Takes .reboot rest →
    step s = .next { s with
      mem := s.image
      pc := 0
      inq := []
      outq := []
      state := .initialized
      fault := none
      cmds := rest
      resps := s.resps ++ [.done] }

/-- 40_host_interface.md R136: Reboot leaves what a fresh Construct of the same text leaves, from the block of that
configuration in which nothing has been constructed. The two states differ in their answers alone (`done`,
`constructed`). -/
def Obligations.RebootEqualsConstruct : Prop :=
  ∀ (s : State) (txt : Text) (rest : List Command), s.image ≠ [] → s.inRun = false →
    loadProgram s.cfg txt = .ok s.image →
    ∃ t u, step { s with cmds := .reboot :: rest } = .next t ∧
      step { State.resetWith s.cfg with cmds := .construct txt :: rest } = .next u ∧
      { t with resps := [] } = ({ u with resps := [] } : State)

/-- 70_reset_and_hazards.md R340 for Construct of a text that is valid: every register at its reset value, and one
cell for each token. (That it replaces an instance already held is the model's choice, log entry 5.) -/
def Obligations.ConstructLoadsProgram : Prop :=
  ∀ (s : State) (txt : Text) (rest : List Command) (img : List Int), s.inRun = false →
    s.cmds = .construct txt :: rest → loadProgram s.cfg txt = .ok img →
    img.length = txt.count ',' + 1 ∧
    step s = .next { s with
      image := img
      mem := img
      pc := 0
      inq := []
      outq := []
      state := .initialized
      fault := none
      cmds := rest
      resps := s.resps ++ [.constructed] }

/-- 60_exceptions.md R301 (decisions D14 and D15) and the detail of R300, row 1: loading a text raises
InvalidProgramText(n) exactly when n is the index of the first token that is not one of the grammar with a value
that fits a Word, or every token is and n is their count, which exceeds MEM_MAX. It raises no other error; and
then Construct makes no instance and records no fault. -/
def Obligations.ConstructRejectsBadText : Prop :=
  ∀ (s : State) (txt : Text) (rest : List Command), s.inRun = false → s.cmds = .construct txt :: rest →
    (∀ n, loadProgram s.cfg txt = .error (.invalidProgramText n) ↔
      (∃ tok, (splitAtEvery ',' txt)[n]? = some tok ∧ ¬ TokenGood s.cfg tok ∧
        ∀ tok' ∈ (splitAtEvery ',' txt).take n, TokenGood s.cfg tok') ∨
      ((∀ tok ∈ splitAtEvery ',' txt, TokenGood s.cfg tok) ∧ n = txt.count ',' + 1 ∧
        ∃ m, s.cfg.memMax = some m ∧ m < n)) ∧
    ∀ e, loadProgram s.cfg txt = .error e →
      (∃ n, e = .invalidProgramText n) ∧ step s = .next (s.answered rest (.error ⟨e, none⟩))

/-- 60_exceptions.md R312 (decisions D10 and D11): a poisoned instance refuses every command but Reboot with the
recorded fault and changes nothing. -/
def Obligations.PoisonedRefusesCommands : Prop :=
  ∀ (s : State) (f : FaultRecord) (c : Command) (rest : List Command), s.Takes c rest →
    s.fault = some f → c ≠ .reboot → (∀ txt, c ≠ .construct txt) →
    step s = .next (s.answered rest (.error f))

/-- The state of a poisoned instance is unobservable (60_exceptions.md R313, 70_reset_and_hazards.md R343): two
instances that agree on image, fault record, configuration and the command port, and may differ in memory, PC,
FIFOs and execution state when they are poisoned, can never be told apart, in any number of steps. -/
def Obligations.PoisonedStateUnobservable : Prop :=
  ∀ (k : Nat) (s t : State), s.SameToHost t →
    SameOutcome (stepN k s) (stepN k t)

/-- 40_host_interface.md R137 (decision D13): Input. -/
def Obligations.InputPushes : Prop :=
  ∀ (s : State) (v : Int) (rest : List Command), s.Takes (.input v) rest → s.fault = none →
    s.cfg.fits v = true →
    (s.cfg.inDepth ≠ some s.inq.length →
      step s = .next { s with inq := s.inq ++ [v], cmds := rest, resps := s.resps ++ [.done] }) ∧
    (s.cfg.inDepth = some s.inq.length → CommandRaises s (.fifoOverflow v))

/-- 40_host_interface.md R138: Output. -/
def Obligations.OutputPops : Prop :=
  ∀ (s : State) (rest : List Command), s.Takes .output rest → s.fault = none →
    (s.outq = [] → CommandRaises s .emptyOutputRead) ∧
    (∀ v q, s.outq = v :: q →
      step s = .next { s with outq := q, cmds := rest, resps := s.resps ++ [.word v] })

/-- 40_host_interface.md R139 (decision D26) and R143: PeekOutput and CurrentState answer and change nothing, and
CurrentState never answers `Running` (which R143 marks as derived, from R131 and 41_dispatch_cycle.md R170).
DebugDump (R144) answers some text and changes nothing: nothing is said of the text (log entry 10). -/
def Obligations.AccessorsChangeNothing : Prop :=
  ∀ (s : State) (rest : List Command), s.fault = none →
    (s.Takes .peekOutput rest → step s = .next (s.answered rest (.words s.outq))) ∧
    (s.Takes .currentState rest →
      step s = .next (s.answered rest (.state s.state)) ∧ s.state ≠ .running) ∧
    (s.Takes .debugDump rest → ∃ text, step s = .next (s.answered rest (.dump text)))

/-- 40_host_interface.md R140: ReadMemory. -/
def Obligations.ReadMemoryAnswersCell : Prop :=
  ∀ (s : State) (a : Int) (rest : List Command), s.Takes (.readMemory a) rest → s.fault = none →
    (∀ v, Memory.read s.mem a = some v → step s = .next (s.answered rest (.word v))) ∧
    (¬(0 ≤ a ∧ a < (s.mem.length : Int)) → CommandRaises s (.memoryOutOfBounds a))

/-- 40_host_interface.md R141: WriteMemory writes one cell and no other state, the image among it; the next fetch
of that cell reads the value. -/
def Obligations.WriteMemoryPatchesCell : Prop :=
  ∀ (s : State) (a v : Int) (rest : List Command), s.Takes (.writeMemory a v) rest → s.fault = none →
    s.cfg.fits v = true →
    (0 ≤ a → a < (s.mem.length : Int) →
      step s = .next { s with
        mem := Memory.write s.mem a v, cmds := rest, resps := s.resps ++ [.done] } ∧
      ∀ b, Memory.read (Memory.write s.mem a v) b = if b = a then some v else Memory.read s.mem b) ∧
    (¬(0 ≤ a ∧ a < (s.mem.length : Int)) → CommandRaises s (.memoryOutOfBounds a))

/-- Run (40_host_interface.md R142) enters `Running` from each of the three other states with nothing else changed,
and the next step is a cycle of the decode/execute loop. -/
def Obligations.RunEntersRunning : Prop :=
  ∀ (s : State) (rest : List Command), s.Takes .run rest → s.fault = none →
    s.state ≠ .running ∧
    step s = .next { s with state := .running, cmds := rest } ∧
    step { s with state := .running, cmds := rest } =
      ({ s with state := .running, cmds := rest } : State).cycle

/-- 41_dispatch_cycle.md R184 and 46_halt.md R281 with HALT_PC_ADVANCE = 0 (decision D8): Run on a `Halted` instance
whose PC addresses a Halt halts again at once, and only the answer is new. -/
def Obligations.HaltedRunHaltsAgain : Prop :=
  ∀ (s : State) (rest : List Command), s.Takes .run rest → s.fault = none → s.state = .halted →
    s.cfg.haltPcAdvance = 0 → s.fetchDecode = .ok .halt →
    stepN 2 s = .next (s.answered rest (.state .halted))

/-- Run on a `BlockedOnInput` instance (41_dispatch_cycle.md R183, marked as derived; 43_io.md R222): with the input
FIFO still empty it blocks again with nothing changed; after Input the same ReadInput consumes the Word. -/
def Obligations.BlockedRunResumes : Prop :=
  ∀ (s : State) (rest : List Command), s.Takes .run rest → s.fault = none →
    s.state = .blockedOnInput → s.fetchDecode = .ok .readInput →
    (s.inq = [] →
      stepN 2 s = .next (s.answered rest (.state .blockedOnInput))) ∧
    (∀ v q d, s.inq = v :: q → s.DestinationIs 0 d →
      stepN 2 s = .next { s with
        state := .running
        mem := Memory.write s.mem d v
        inq := q
        pc := s.pc + 2
        cmds := rest })

/-! ### Program text, assembly, instances -/

/-- 40_host_interface.md R134 (decision D15): the tokens are split at every comma; the text is valid exactly when
every token is one of the grammar whose value fits a Word, and the image is the values in order. -/
def Obligations.ProgramTextGrammar : Prop :=
  ∀ (c : Config) (txt : Text) (img : List Int),
    (splitAtEvery ',' txt).length = txt.count ',' + 1 ∧
    joinWith [','] (splitAtEvery ',' txt) = txt ∧
    (∀ tok ∈ splitAtEvery ',' txt, ',' ∉ tok) ∧
    (parseProgram c txt = .ok img ↔
      List.Forall₂ (fun tok v => TokenHasValue c tok v ∧ c.fits v = true) (splitAtEvery ',' txt) img)

/-- Writing an image out (30_encoding.md R114) and parsing the text gives the image back, in every configuration
in which it is an image. -/
def Obligations.ProgramTextRoundTrip : Prop :=
  ∀ (c : Config) (img : List Int), imageWf c img = true → loadProgram c (programText img) = .ok img

/-- Assembling one instruction succeeds exactly when it has as many operands as its format, each with a value in the
labels' environment, and its destination, if it has one, is written `[e]`. Of these, 30_encoding.md R110 states only
that a destination `#e` is an error: that a wrong number of operands or an undefined label is one is the model's
choice (log entry 18, DESIGN CHOICE). The cells then decode to the instruction of that mnemonic, with mode 1 for
each `#e` source and 0 for each `[e]` source, and the operand values as its parameter cells (R113, decision D20). -/
def Obligations.AssembledInstructionDecodes : Prop :=
  ∀ (env : List (Text × Nat)) (h : Handler) (args : List AsmArg),
    ((∃ cells, assembleOp env h args = some cells) ↔
      args.length + 1 = h.row.len ∧ (∀ arg ∈ args, ∃ v, arg.expr.value env = some v) ∧
        ∀ k, h.row.dest = some k → ∃ e, args[k]? = some (.cell e)) ∧
    ∀ cells, assembleOp env h args = some cells →
      ∃ i ps, cells = encode i ps ∧ decodeCells cells = .ok (i, ps, []) ∧ i.handler = h ∧
        args.length = ps.length ∧
        (∀ (k : Nat) (arg : AsmArg), args[k]? = some arg → arg.expr.value env = ps[k]?) ∧
        (∀ (k : Nat) (m : Mode), i.modes[k]? = some m →
          ∃ arg, args[k]? = some arg ∧ (m = .immediate ↔ ∃ e, arg = .imm e))

/-- 60_exceptions.md R321: instances share nothing that can change. A step of one leaves every other as it was, and
does what it would do alone. -/
def Obligations.InstancesAreIndependent : Prop :=
  ∀ (b b' : Instances) (k : Nat), b.stepAt k = .next b' →
    (∃ s t, b[k]? = some s ∧ step s = .next t ∧ b'[k]? = some t) ∧
    b'.length = b.length ∧ ∀ j, j ≠ k → b'[j]? = b[j]?

/-! ### Codes -/

/-- The numeric codes and the details of 60_exceptions.md R300 (decision D16) and the codes of the execution states
(10_state.md R37): code 0 exactly when no fault is recorded, the code of each kind with the detail it records, and
that code and detail together tell every error. -/
def Obligations.ErrorAndStateCodes : Prop :=
  (∀ s : State, (s.faultCode = 0 ↔ s.fault = none) ∧
    ∀ f, s.fault = some f → s.faultCode = f.error.code ∧ f.triple = (f.error.code, f.pc, f.error.detail)) ∧
  (∀ n w a k r v, (ErrorInfo.invalidProgramText n).code = 1 ∧ (ErrorInfo.invalidProgramText n).detail = [(n : Int)] ∧
    (ErrorInfo.unknownOpcode w).code = 2 ∧ (ErrorInfo.unknownOpcode w).detail = [w] ∧
    (ErrorInfo.memoryOutOfBounds a).code = 3 ∧ (ErrorInfo.memoryOutOfBounds a).detail = [a] ∧
    ErrorInfo.emptyOutputRead.code = 4 ∧ ErrorInfo.emptyOutputRead.detail = [] ∧
    (ErrorInfo.invalidAddressingMode k w).code = 5 ∧ (ErrorInfo.invalidAddressingMode k w).detail = [(k : Int), w] ∧
    (ErrorInfo.arithmeticOverflow r).code = 6 ∧ (ErrorInfo.arithmeticOverflow r).detail = [r] ∧
    (ErrorInfo.fifoOverflow v).code = 7 ∧ (ErrorInfo.fifoOverflow v).detail = [v]) ∧
  (∀ e e' : ErrorInfo, e.code = e'.code → e.detail = e'.detail → e = e') ∧
  ExecState.initialized.code = 0 ∧ ExecState.running.code = 1 ∧ ExecState.blockedOnInput.code = 2 ∧
    ExecState.halted.code = 3
end

