-- ==== Sys2Proof/Laws/Arith.lean ====
section
/-! SUPPORT. What `fits` and `store` can do. -/

namespace Sys2Proof

theorem halfRange_two_mul {w : Nat} (h : 1 ≤ w) : 2 * halfRange w = ((2 ^ w : Nat) : Int) := by
  obtain ⟨k, rfl⟩ : ∃ k, w = k + 1 := ⟨w - 1, by omega⟩
  simp only [halfRange, Nat.add_sub_cancel, pow_succ]
  omega

theorem Config.fits_iff {c : Config} {w : Nat} (h : c.wordBits = some w) {v : Int} :
    c.fits v = true ↔ -(halfRange w) ≤ v ∧ v ≤ halfRange w - 1 := by
  simp [Config.fits, h]

theorem Config.fits_unbounded {c : Config} (h : c.wordBits = none) (v : Int) : c.fits v = true := by
  simp [Config.fits, h]

/-- A legal width is at least 16 (00_scope.md R7). -/
theorem Config.legal_width {c : Config} (hl : c.legal = true) {w : Nat} (h : c.wordBits = some w) :
    16 ≤ w := by
  simp only [Config.legal, Bool.and_eq_true, h, decide_eq_true_eq] at hl
  exact hl.1.1.1.1

theorem halfRange_legal {w : Nat} (h : 16 ≤ w) : 32768 ≤ halfRange w := by
  have : 2 ^ 15 ≤ 2 ^ (w - 1) := Nat.pow_le_pow_right (by decide) (by omega)
  simp only [halfRange]
  omega

/-- Every small integer is a Word of a legal configuration. -/
theorem Config.fits_small {c : Config} (hl : c.legal = true) {v : Int} (h0 : -32768 ≤ v) (h1 : v ≤ 32767) :
    c.fits v = true := by
  cases hw : c.wordBits with
  | none => exact c.fits_unbounded hw v
  | some w =>
    have := halfRange_legal (c.legal_width hl hw)
    rw [c.fits_iff hw]
    omega

theorem Config.store_of_fits {c : Config} {r : Int} (h : c.fits r = true) : c.store r = .ok r := by
  simp [Config.store, h]

theorem Config.store_trap {c : Config} {r : Int} (h : c.fits r = false) (ht : c.overflow = .trap) :
    c.store r = .error (.arithmeticOverflow r) := by
  simp [Config.store, h, ht]

theorem Config.store_wrap {c : Config} {r : Int} {w : Nat} (h : c.fits r = false) (ht : c.overflow = .wrap)
    (hw : c.wordBits = some w) : c.store r = .ok (wrapWord w r) := by
  simp [Config.store, h, ht, hw]

/-- `store` raises only ArithmeticOverflow, and only under trap for a result that does not fit. -/
theorem Config.store_error {c : Config} {r : Int} {e : ErrorInfo} :
    c.store r = .error e ↔ c.overflow = .trap ∧ c.fits r = false ∧ e = .arithmeticOverflow r := by
  unfold Config.store
  split
  · simp_all
  · split <;> simp_all [eq_comm (a := e)]

/-- The wrapped result is a Word of its width, congruent to the exact result. -/
theorem wrapWord_spec {w : Nat} (h : 1 ≤ w) (r : Int) :
    -(halfRange w) ≤ wrapWord w r ∧ wrapWord w r ≤ halfRange w - 1 ∧
      wrapWord w r % ((2 ^ w : Nat) : Int) = r % ((2 ^ w : Nat) : Int) := by
  have h2 := halfRange_two_mul h
  have hpos : 0 < 2 ^ w := Nat.two_pow_pos w
  have hl := Int.le_bmod (x := r) hpos
  have hu := Int.bmod_lt (x := r) hpos
  have hm : Int.bmod r (2 ^ w) % ((2 ^ w : Nat) : Int) = r % ((2 ^ w : Nat) : Int) := Int.bmod_emod
  simp only [wrapWord]
  omega

/-- What is stored is a Word. -/
theorem Config.store_fits {c : Config} (hl : c.legal = true) {r v : Int} (h : c.store r = .ok v) :
    c.fits v = true := by
  unfold Config.store at h
  split at h
  · cases h; assumption
  · split at h
    · cases h
    · rename_i w _ hw
      cases h
      have := c.legal_width hl hw
      have := wrapWord_spec (w := w) (by omega) r
      rw [c.fits_iff hw]
      omega
    · rename_i hw
      exact c.fits_unbounded hw v

end Sys2Proof
end

