-- ==== Sys2Proof/Laws/Decode.lean ====
section
/-! SUPPORT. The small lemmas of the decoder and the encoder. -/

namespace Sys2Proof

@[simp] theorem modeOfDigit_digit (m : Mode) : modeOfDigit m.digit = some m := by cases m <;> rfl

theorem modeOfDigit_eq_some {d : Nat} {m : Mode} : modeOfDigit d = some m ↔ d = m.digit := by
  match d with
  | 0 => cases m <;> simp [modeOfDigit, Mode.digit]
  | 1 => cases m <;> simp [modeOfDigit, Mode.digit]
  | d + 2 => cases m <;> simp [modeOfDigit, Mode.digit]

theorem modeOfDigit_eq_none {d : Nat} : modeOfDigit d = none ↔ 2 ≤ d := by
  match d with
  | 0 => simp [modeOfDigit]
  | 1 => simp [modeOfDigit]
  | d + 2 => simp [modeOfDigit]

/-- The digit of a flag is the digit of the word, two places up (30_encoding.md R92). -/
theorem digit_flags (n k : Nat) : digit (n / 100) k = digit n (k + 2) := by
  simp only [digit, Nat.div_div_eq_div_mul, pow_add]
  rw [Nat.mul_comm]; rfl

theorem sourceMode_ok {w : Int} {k : Nat} {m : Mode} :
    sourceMode w k = .ok m ↔ digit w.toNat (k + 2) = m.digit := by
  unfold sourceMode
  rw [digit_flags, ← modeOfDigit_eq_some]
  cases modeOfDigit (digit w.toNat (k + 2)) <;> simp

theorem sourceMode_error {w : Int} {k : Nat} {e : ErrorInfo} :
    sourceMode w k = .error e ↔ 2 ≤ digit w.toNat (k + 2) ∧ e = .invalidAddressingMode k w := by
  unfold sourceMode
  rw [digit_flags, ← modeOfDigit_eq_none]
  cases modeOfDigit (digit w.toNat (k + 2)) <;> simp [eq_comm (a := e)]

/-- The ROM has a row for an opcode exactly when a handler has that opcode, and it is the handler's row. -/
theorem romLookup_eq_some {op : Nat} {r : RomRow} :
    romLookup op = some r ↔ ∃ h : Handler, h.row = r ∧ h.row.opcode = op := by
  constructor
  · intro hr
    have h1 := List.find?_some hr
    have h2 := List.mem_of_find?_eq_some hr
    simp only [dispatchRom, List.mem_map] at h2
    obtain ⟨h, -, rfl⟩ := h2
    exact ⟨h, rfl, by simpa using h1⟩
  · rintro ⟨h, rfl, rfl⟩
    cases h <;> rfl

@[simp] theorem romLookup_opcode (h : Handler) : romLookup h.row.opcode = some h.row := by cases h <;> rfl

theorem Handler.row_handler (h : Handler) : h.row.handler = h := by cases h <;> rfl

/-- All that the decoder can answer with success. -/
theorem decode_ok {w : Int} {i : Instr} :
    decode w = .ok i ↔ 0 ≤ w ∧ ∃ h : Handler, w.toNat % 100 = h.row.opcode ∧ selectInstr w h = .ok i := by
  unfold decode
  split
  · simp; omega
  · have h0 : 0 ≤ w := by omega
    split
    · rename_i hn
      simp only [reduceCtorEq, false_iff, not_and, not_exists]
      rintro - h hh
      rw [hh, romLookup_opcode] at hn
      cases hn
    · rename_i r hr
      obtain ⟨h, rfl, hop⟩ := romLookup_eq_some.1 hr
      rw [h.row_handler]
      constructor
      · intro hs; exact ⟨h0, h, hop.symm, hs⟩
      · rintro ⟨-, g, hg, hs⟩
        rw [hg, romLookup_opcode] at hr
        have : g = h := by rw [← g.row_handler, ← h.row_handler]; simpa using congrArg RomRow.handler (Option.some.inj hr)
        exact this ▸ hs

/-- The decoder selects an instruction of the handler it looked up. -/
theorem selectInstr_handler {w : Int} {h : Handler} {i : Instr} (hi : selectInstr w h = .ok i) :
    i.handler = h := by
  cases h <;> simp only [selectInstr] at hi
  case readInput => cases hi; rfl
  case halt => cases hi; rfl
  case writeOutput => cases h0 : sourceMode w 0 <;> simp_all [bind, Except.bind]; subst hi; rfl
  all_goals
    cases h0 : sourceMode w 0 <;> cases h1 : sourceMode w 1 <;> simp_all [bind, Except.bind]
    subst hi; rfl

end Sys2Proof
end

