-- ==== Sys2Proof/Laws/State.lean ====
section
/-! SUPPORT. One lemma per field per update of State, each true by rfl. -/

namespace Sys2Proof.Machine

variable (s : State)

@[simp] theorem State.setPc_mem (n : Nat) : (s.setPc n).mem = s.mem := rfl
@[simp] theorem State.setPc_pc (n : Nat) : (s.setPc n).pc = n := rfl
@[simp] theorem State.setPc_state (n : Nat) : (s.setPc n).state = s.state := rfl
@[simp] theorem State.setPc_inq (n : Nat) : (s.setPc n).inq = s.inq := rfl
@[simp] theorem State.setPc_outq (n : Nat) : (s.setPc n).outq = s.outq := rfl
@[simp] theorem State.setPc_fault (n : Nat) : (s.setPc n).fault = s.fault := rfl
@[simp] theorem State.setPc_image (n : Nat) : (s.setPc n).image = s.image := rfl
@[simp] theorem State.setPc_cfg (n : Nat) : (s.setPc n).cfg = s.cfg := rfl
@[simp] theorem State.setPc_cmds (n : Nat) : (s.setPc n).cmds = s.cmds := rfl
@[simp] theorem State.setPc_resps (n : Nat) : (s.setPc n).resps = s.resps := rfl

@[simp] theorem State.advance_mem (n : Nat) : (s.advance n).mem = s.mem := rfl
@[simp] theorem State.advance_pc (n : Nat) : (s.advance n).pc = s.pc + n := rfl
@[simp] theorem State.advance_state (n : Nat) : (s.advance n).state = s.state := rfl
@[simp] theorem State.advance_inq (n : Nat) : (s.advance n).inq = s.inq := rfl
@[simp] theorem State.advance_outq (n : Nat) : (s.advance n).outq = s.outq := rfl
@[simp] theorem State.advance_fault (n : Nat) : (s.advance n).fault = s.fault := rfl
@[simp] theorem State.advance_image (n : Nat) : (s.advance n).image = s.image := rfl
@[simp] theorem State.advance_cfg (n : Nat) : (s.advance n).cfg = s.cfg := rfl
@[simp] theorem State.advance_cmds (n : Nat) : (s.advance n).cmds = s.cmds := rfl
@[simp] theorem State.advance_resps (n : Nat) : (s.advance n).resps = s.resps := rfl

@[simp] theorem State.setState_mem (e : ExecState) : (s.setState e).mem = s.mem := rfl
@[simp] theorem State.setState_pc (e : ExecState) : (s.setState e).pc = s.pc := rfl
@[simp] theorem State.setState_state (e : ExecState) : (s.setState e).state = e := rfl
@[simp] theorem State.setState_inq (e : ExecState) : (s.setState e).inq = s.inq := rfl
@[simp] theorem State.setState_outq (e : ExecState) : (s.setState e).outq = s.outq := rfl
@[simp] theorem State.setState_fault (e : ExecState) : (s.setState e).fault = s.fault := rfl
@[simp] theorem State.setState_image (e : ExecState) : (s.setState e).image = s.image := rfl
@[simp] theorem State.setState_cfg (e : ExecState) : (s.setState e).cfg = s.cfg := rfl
@[simp] theorem State.setState_cmds (e : ExecState) : (s.setState e).cmds = s.cmds := rfl
@[simp] theorem State.setState_resps (e : ExecState) : (s.setState e).resps = s.resps := rfl

@[simp] theorem State.inPush_mem (v : Int) : (s.inPush v).mem = s.mem := rfl
@[simp] theorem State.inPush_pc (v : Int) : (s.inPush v).pc = s.pc := rfl
@[simp] theorem State.inPush_state (v : Int) : (s.inPush v).state = s.state := rfl
@[simp] theorem State.inPush_inq (v : Int) : (s.inPush v).inq = s.inq ++ [v] := rfl
@[simp] theorem State.inPush_outq (v : Int) : (s.inPush v).outq = s.outq := rfl
@[simp] theorem State.inPush_fault (v : Int) : (s.inPush v).fault = s.fault := rfl
@[simp] theorem State.inPush_image (v : Int) : (s.inPush v).image = s.image := rfl
@[simp] theorem State.inPush_cfg (v : Int) : (s.inPush v).cfg = s.cfg := rfl
@[simp] theorem State.inPush_cmds (v : Int) : (s.inPush v).cmds = s.cmds := rfl
@[simp] theorem State.inPush_resps (v : Int) : (s.inPush v).resps = s.resps := rfl

@[simp] theorem State.outPush_mem (v : Int) : (s.outPush v).mem = s.mem := rfl
@[simp] theorem State.outPush_pc (v : Int) : (s.outPush v).pc = s.pc := rfl
@[simp] theorem State.outPush_state (v : Int) : (s.outPush v).state = s.state := rfl
@[simp] theorem State.outPush_inq (v : Int) : (s.outPush v).inq = s.inq := rfl
@[simp] theorem State.outPush_outq (v : Int) : (s.outPush v).outq = s.outq ++ [v] := rfl
@[simp] theorem State.outPush_fault (v : Int) : (s.outPush v).fault = s.fault := rfl
@[simp] theorem State.outPush_image (v : Int) : (s.outPush v).image = s.image := rfl
@[simp] theorem State.outPush_cfg (v : Int) : (s.outPush v).cfg = s.cfg := rfl
@[simp] theorem State.outPush_cmds (v : Int) : (s.outPush v).cmds = s.cmds := rfl
@[simp] theorem State.outPush_resps (v : Int) : (s.outPush v).resps = s.resps := rfl

@[simp] theorem State.raise_mem (at_ : Option Nat) (e : ErrorInfo) : (s.raise at_ e).mem = s.mem := rfl
@[simp] theorem State.raise_pc (at_ : Option Nat) (e : ErrorInfo) : (s.raise at_ e).pc = s.pc := rfl
@[simp] theorem State.raise_state (at_ : Option Nat) (e : ErrorInfo) : (s.raise at_ e).state = s.state := rfl
@[simp] theorem State.raise_inq (at_ : Option Nat) (e : ErrorInfo) : (s.raise at_ e).inq = s.inq := rfl
@[simp] theorem State.raise_outq (at_ : Option Nat) (e : ErrorInfo) : (s.raise at_ e).outq = s.outq := rfl
@[simp] theorem State.raise_fault (at_ : Option Nat) (e : ErrorInfo) : (s.raise at_ e).fault = some ⟨e, at_⟩ := rfl
@[simp] theorem State.raise_faultCode (at_ : Option Nat) (e : ErrorInfo) : (s.raise at_ e).faultCode = e.code := rfl
@[simp] theorem State.raise_image (at_ : Option Nat) (e : ErrorInfo) : (s.raise at_ e).image = s.image := rfl
@[simp] theorem State.raise_cfg (at_ : Option Nat) (e : ErrorInfo) : (s.raise at_ e).cfg = s.cfg := rfl
@[simp] theorem State.raise_cmds (at_ : Option Nat) (e : ErrorInfo) : (s.raise at_ e).cmds = s.cmds := rfl
@[simp] theorem State.raise_resps (at_ : Option Nat) (e : ErrorInfo) : (s.raise at_ e).resps = s.resps := rfl

@[simp] theorem State.load_mem (im : List Int) : (s.load im).mem = im := rfl
@[simp] theorem State.load_pc (im : List Int) : (s.load im).pc = 0 := rfl
@[simp] theorem State.load_state (im : List Int) : (s.load im).state = .initialized := rfl
@[simp] theorem State.load_inq (im : List Int) : (s.load im).inq = [] := rfl
@[simp] theorem State.load_outq (im : List Int) : (s.load im).outq = [] := rfl
@[simp] theorem State.load_fault (im : List Int) : (s.load im).fault = none := rfl
@[simp] theorem State.load_faultCode (im : List Int) : (s.load im).faultCode = 0 := rfl
@[simp] theorem State.load_image (im : List Int) : (s.load im).image = im := rfl
@[simp] theorem State.load_cfg (im : List Int) : (s.load im).cfg = s.cfg := rfl
@[simp] theorem State.load_cmds (im : List Int) : (s.load im).cmds = s.cmds := rfl
@[simp] theorem State.load_resps (im : List Int) : (s.load im).resps = s.resps := rfl

@[simp] theorem State.respond_mem (r : Response) : (s.respond r).mem = s.mem := rfl
@[simp] theorem State.respond_pc (r : Response) : (s.respond r).pc = s.pc := rfl
@[simp] theorem State.respond_state (r : Response) : (s.respond r).state = s.state := rfl
@[simp] theorem State.respond_inq (r : Response) : (s.respond r).inq = s.inq := rfl
@[simp] theorem State.respond_outq (r : Response) : (s.respond r).outq = s.outq := rfl
@[simp] theorem State.respond_fault (r : Response) : (s.respond r).fault = s.fault := rfl
@[simp] theorem State.respond_image (r : Response) : (s.respond r).image = s.image := rfl
@[simp] theorem State.respond_cfg (r : Response) : (s.respond r).cfg = s.cfg := rfl
@[simp] theorem State.respond_cmds (r : Response) : (s.respond r).cmds = s.cmds := rfl
@[simp] theorem State.respond_resps (r : Response) : (s.respond r).resps = s.resps ++ [r] := rfl

@[simp] theorem State.reboot_mem : s.reboot.mem = s.image := rfl
@[simp] theorem State.reboot_pc : s.reboot.pc = 0 := rfl
@[simp] theorem State.reboot_state : s.reboot.state = .initialized := rfl
@[simp] theorem State.reboot_inq : s.reboot.inq = [] := rfl
@[simp] theorem State.reboot_outq : s.reboot.outq = [] := rfl
@[simp] theorem State.reboot_fault : s.reboot.fault = none := rfl
@[simp] theorem State.reboot_image : s.reboot.image = s.image := rfl
@[simp] theorem State.reboot_cfg : s.reboot.cfg = s.cfg := rfl
@[simp] theorem State.reboot_cmds : s.reboot.cmds = s.cmds := rfl
@[simp] theorem State.reboot_resps : s.reboot.resps = s.resps := rfl

/-- An error always has a code from 1 to 7. -/
theorem errorInfo_code_range (e : ErrorInfo) : 1 ≤ e.code ∧ e.code ≤ 7 := by cases e <;> simp [ErrorInfo.code]

@[simp] theorem State.settle_ok (t : State) : s.settle (.ok t) = .next t := rfl
@[simp] theorem State.settle_error (e : ErrorInfo) :
    s.settle (.error e) = .next (s.raise (some s.pc) e) := rfl

/-- An instruction that settles always answers a next state: its own, or the error recorded. -/
theorem State.settle_next {r : Except ErrorInfo State} {t : State} (h : s.settle r = .next t) :
    r = .ok t ∨ ∃ e, r = .error e ∧ t = s.raise (some s.pc) e := by
  cases r with
  | ok u => left; simpa using h
  | error e => right; exact ⟨e, rfl, by simpa using h.symm⟩

end Sys2Proof.Machine
end

