-- ==== Sys2Proof/Laws/Memory.lean ====
section
/-! SUPPORT. The memory laws: when a read answers, what a write changes, and that every memory operation keeps
the form `Memory.wf`. -/

namespace Sys2Proof.Machine

theorem Memory.read_eq_some {m : Memory} {a v : Int} :
    Memory.read m a = some v ↔ 0 ≤ a ∧ a.toNat < m.length ∧ m[a.toNat]? = some v := by
  unfold Memory.read
  split
  · constructor
    · intro h; exact ⟨‹_›, (List.getElem?_eq_some_iff.1 h).1, h⟩
    · rintro ⟨-, -, h⟩; exact h
  · constructor
    · intro h; simp at h
    · rintro ⟨h, -⟩; contradiction

theorem Memory.read_lt {m : Memory} {a v : Int} (h : Memory.read m a = some v) :
    0 ≤ a ∧ a < (m.length : Int) := by
  obtain ⟨h0, h1, -⟩ := Memory.read_eq_some.1 h
  omega

theorem Memory.read_mem {m : Memory} {a v : Int} (h : Memory.read m a = some v) : v ∈ m :=
  List.mem_of_getElem? (Memory.read_eq_some.1 h).2.2

theorem Memory.read_eq_none {m : Memory} {a : Int} :
    Memory.read m a = none ↔ ¬(0 ≤ a ∧ a < (m.length : Int)) := by
  unfold Memory.read
  split
  · rw [List.getElem?_eq_none_iff]; omega
  · simp; omega

@[simp] theorem Memory.write_length (m : Memory) (a v : Int) : (Memory.write m a v).length = m.length := by
  unfold Memory.write; split <;> simp

theorem Memory.read_write_same {m : Memory} {a : Int} (v : Int) (h : 0 ≤ a ∧ a < (m.length : Int)) :
    Memory.read (Memory.write m a v) a = some v := by
  have h1 : a.toNat < m.length := by omega
  simp [Memory.read, Memory.write, h.1, h1]

theorem Memory.read_write_other {m : Memory} {a b : Int} (v : Int) (h : b ≠ a) :
    Memory.read (Memory.write m a v) b = Memory.read m b := by
  unfold Memory.read Memory.write
  by_cases hb : 0 ≤ b <;> by_cases ha : 0 ≤ a <;> simp only [hb, ha, if_true, if_false]
  rw [List.getElem?_set_ne]
  omega

theorem Memory.mem_write {m : Memory} {a v x : Int} (h : x ∈ Memory.write m a v) : x = v ∨ x ∈ m := by
  unfold Memory.write at h
  split at h
  · exact (List.mem_or_eq_of_mem_set h).symm
  · exact .inr h

/-- A memory's cells are Words. -/
theorem Memory.wf_fits {c : Config} {m : Memory} (h : Memory.wf c m = true) {v : Int} (hv : v ∈ m) :
    c.fits v = true := by
  simp only [Memory.wf, Bool.and_eq_true, List.all_eq_true] at h
  exact h.2 v hv

/-- Writing a Word keeps the form of memory. -/
theorem Memory.write_wf {c : Config} {m : Memory} {v : Int} (a : Int) (h : Memory.wf c m = true)
    (hv : c.fits v = true) : Memory.wf c (Memory.write m a v) = true := by
  simp only [Memory.wf, Bool.and_eq_true, List.all_eq_true, Memory.write_length] at h ⊢
  refine ⟨h.1, fun x hx => ?_⟩
  rcases Memory.mem_write hx with rfl | hx
  · exact hv
  · exact h.2 x hx

/-- The reset memory has the form. -/
theorem Memory.wf_reset : Memory.wf State.reset.cfg State.reset.mem = true := by decide

theorem State.inRange_iff {s : State} {a : Int} :
    s.inRange a = true ↔ 0 ≤ a ∧ a < (s.mem.length : Int) := by
  simp [State.inRange]

theorem State.inRange_eq_false {s : State} {a : Int} :
    s.inRange a = false ↔ ¬(0 ≤ a ∧ a < (s.mem.length : Int)) := by
  rw [← State.inRange_iff]; simp

/-- All that `MemRead` can do. -/
theorem State.memRead_ok {s : State} {a v : Int} : s.memRead a = .ok v ↔ Memory.read s.mem a = some v := by
  unfold State.memRead; split <;> simp_all

theorem State.memRead_error {s : State} {a : Int} {e : ErrorInfo} :
    s.memRead a = .error e ↔ Memory.read s.mem a = none ∧ e = .memoryOutOfBounds a := by
  unfold State.memRead; split <;> simp_all [eq_comm (a := e)]

/-- All that `MemWrite` can do. -/
theorem State.memWrite_ok {s t : State} {a v : Int} :
    s.memWrite a v = .ok t ↔
      (0 ≤ a ∧ a < (s.mem.length : Int)) ∧ t = { s with mem := Memory.write s.mem a v } := by
  unfold State.memWrite
  rw [← State.inRange_iff]
  split <;> simp_all [eq_comm (a := t)]

theorem State.memWrite_error {s : State} {a v : Int} {e : ErrorInfo} :
    s.memWrite a v = .error e ↔
      ¬(0 ≤ a ∧ a < (s.mem.length : Int)) ∧ e = .memoryOutOfBounds a := by
  unfold State.memWrite
  rw [← State.inRange_iff]
  split <;> simp_all [eq_comm (a := e)]

end Sys2Proof.Machine
end

