-- ==== Sys2Proof/Laws/Operands.lean ====
section
/-! SUPPORT. What resolving a parameter can do, said over memory alone (41_dispatch_cycle.md R178), and all that
the shared shapes `writeResult` and `jump` can do. -/

namespace Sys2Proof.Machine

theorem except_bind_ok {α β ε : Type} {x : Except ε α} {f : α → Except ε β} {b : β} :
    (x >>= f) = .ok b ↔ ∃ a, x = .ok a ∧ f a = .ok b := by
  cases x <;> simp [bind, Except.bind]

theorem except_bind_error {α β ε : Type} {x : Except ε α} {f : α → Except ε β} {e : ε} :
    (x >>= f) = .error e ↔ x = .error e ∨ ∃ a, x = .ok a ∧ f a = .error e := by
  cases x <;> simp [bind, Except.bind]

theorem State.param_ok {s : State} {k : Nat} {p : Int} : s.param k = .ok p ↔ s.ParamIs k p :=
  State.memRead_ok

theorem State.param_error {s : State} {k : Nat} {e : ErrorInfo} :
    s.param k = .error e ↔
      s.ParamMissing k ∧ e = .memoryOutOfBounds ((s.pc : Int) + 1 + (k : Int)) :=
  State.memRead_error

theorem State.source_ok {s : State} {k : Nat} {m : Mode} {v : Int} :
    s.source k m = .ok v ↔ s.OperandIs k m v := by
  unfold State.source
  rw [except_bind_ok]
  cases m <;> simp [State.OperandIs, State.param_ok, State.memRead_ok]

theorem State.source_error {s : State} {k : Nat} {m : Mode} {e : ErrorInfo} :
    s.source k m = .error e ↔ s.OperandFails k m e := by
  unfold State.source
  rw [except_bind_error]
  cases m <;> simp [State.OperandFails, State.param_ok, State.param_error, State.memRead_error]

theorem State.destination_ok {s : State} {k : Nat} {d : Int} :
    s.destination k = .ok d ↔ s.DestinationIs k d := by
  unfold State.destination
  rw [except_bind_ok]
  simp only [State.DestinationIs, ← State.inRange_iff, ← State.param_ok]
  constructor
  · rintro ⟨p, hp, h⟩
    split at h
    · cases h; exact ⟨hp, ‹_›⟩
    · cases h
  · rintro ⟨hp, h⟩; exact ⟨d, hp, by simp [h]⟩

theorem State.destination_error {s : State} {k : Nat} {e : ErrorInfo} :
    s.destination k = .error e ↔ s.DestinationFails k e := by
  unfold State.destination
  rw [except_bind_error]
  simp only [State.DestinationFails, ← State.inRange_eq_false, ← State.param_ok, ← State.param_error]
  constructor
  · rintro (h | ⟨p, hp, h⟩)
    · exact .inl h
    · split at h
      · cases h
      · cases h; exact .inr ⟨p, hp, Bool.eq_false_iff.2 ‹_›, rfl⟩
  · rintro (h | ⟨p, hp, h, rfl⟩)
    · exact .inl h
    · exact .inr ⟨p, hp, by simp [h]⟩

theorem State.OperandIs.unique {s : State} {k : Nat} {m : Mode} {v w : Int} (h : s.OperandIs k m v)
    (h' : s.OperandIs k m w) : v = w := by
  have := State.source_ok.2 h
  rw [State.source_ok.2 h'] at this
  cases this; rfl

theorem State.DestinationIs.unique {s : State} {k : Nat} {d e : Int} (h : s.DestinationIs k d)
    (h' : s.DestinationIs k e) : d = e := by
  have := State.destination_ok.2 h
  rw [State.destination_ok.2 h'] at this
  cases this; rfl

/-- A source parameter either resolves or raises. -/
theorem State.operand_cases (s : State) (k : Nat) (m : Mode) :
    (∃ v, s.OperandIs k m v) ∨ ∃ e, s.OperandFails k m e := by
  cases h : s.source k m with
  | ok v => exact .inl ⟨v, State.source_ok.1 h⟩
  | error e => exact .inr ⟨e, State.source_error.1 h⟩

/-- An operand of a state whose memory holds Words is a Word. -/
theorem State.OperandIs.fits {s : State} (h : Memory.wf s.cfg s.mem = true) {k : Nat} {m : Mode} {v : Int}
    (hv : s.OperandIs k m v) : s.cfg.fits v = true := by
  cases m with
  | immediate => exact Memory.wf_fits h (Memory.read_mem hv)
  | position => obtain ⟨p, -, hp⟩ := hv; exact Memory.wf_fits h (Memory.read_mem hp)

/-- A parameter cell stands in memory, so the PC after it is at most N (44_jumps.md R242). -/
theorem State.ParamIs.lt {s : State} {k : Nat} {p : Int} (h : s.ParamIs k p) :
    s.pc + 1 + k < s.mem.length := by
  have := Memory.read_lt h
  omega

theorem State.OperandIs.param {s : State} {k : Nat} {m : Mode} {v : Int} (h : s.OperandIs k m v) :
    ∃ p, s.ParamIs k p := by
  cases m with
  | immediate => exact ⟨v, h⟩
  | position => obtain ⟨p, hp, -⟩ := h; exact ⟨p, hp⟩

/-- All that `writeResult` can do. -/
theorem State.writeResult_next {s t : State} {h : Handler} {ma mb : Mode}
    {f : Int → Int → Except ErrorInfo Int} (ht : s.writeResult h ma mb f = .next t) :
    (∃ a b d v, s.OperandIs 0 ma a ∧ s.OperandIs 1 mb b ∧ s.DestinationIs 2 d ∧ f a b = .ok v ∧
      t = { s with mem := Memory.write s.mem d v, pc := s.pc + h.row.adv }) ∨
    (∃ e, t = s.raise (some s.pc) e ∧
      (s.OperandFails 0 ma e ∨ ∃ a, s.OperandIs 0 ma a ∧
        (s.OperandFails 1 mb e ∨ ∃ b, s.OperandIs 1 mb b ∧
          (s.DestinationFails 2 e ∨ ∃ d, s.DestinationIs 2 d ∧ f a b = .error e)))) := by
  rcases s.settle_next ht with h1 | ⟨e, h1, rfl⟩
  · left
    simp only [except_bind_ok, State.source_ok, State.destination_ok, State.memWrite_ok] at h1
    obtain ⟨a, ha, b, hb, d, hd, v, hv, u, ⟨-, rfl⟩, h1⟩ := h1
    cases h1
    exact ⟨a, b, d, v, ha, hb, hd, hv, rfl⟩
  · right
    refine ⟨e, rfl, ?_⟩
    simp only [except_bind_error, State.source_ok, State.destination_ok, State.source_error,
      State.destination_error, State.memWrite_error] at h1
    rcases h1 with h1 | ⟨a, ha, h1 | ⟨b, hb, h1 | ⟨d, hd, h1 | ⟨v, hv, ⟨hn, -⟩ | ⟨u, -, h1⟩⟩⟩⟩⟩
    · exact .inl h1
    · exact .inr ⟨a, ha, .inl h1⟩
    · exact .inr ⟨a, ha, .inr ⟨b, hb, .inl h1⟩⟩
    · exact .inr ⟨a, ha, .inr ⟨b, hb, .inr ⟨d, hd, h1⟩⟩⟩
    · exact absurd hd.2 hn
    · cases h1

/-- `writeResult` on parameters that resolve. -/
theorem State.writeResult_resolved {s : State} {h : Handler} {ma mb : Mode}
    {f : Int → Int → Except ErrorInfo Int} {a b d : Int} (ha : s.OperandIs 0 ma a)
    (hb : s.OperandIs 1 mb b) (hd : s.DestinationIs 2 d) :
    s.writeResult h ma mb f =
      match f a b with
      | .ok v => .next { s with mem := Memory.write s.mem d v, pc := s.pc + h.row.adv }
      | .error e => .next (s.raise (some s.pc) e) := by
  have hw : ∀ v, s.memWrite d v = .ok { s with mem := Memory.write s.mem d v } :=
    fun v => State.memWrite_ok.2 ⟨hd.2, rfl⟩
  unfold State.writeResult
  rw [State.source_ok.2 ha, State.source_ok.2 hb, State.destination_ok.2 hd]
  cases hf : f a b <;> simp [bind, Except.bind, hf, hw, State.advance]

/-- All that `jump` can do. -/
theorem State.jump_next {s t : State} {h : Handler} {ma mb : Mode} {taken : Int → Bool}
    (ht : s.jump h ma mb taken = .next t) :
    (∃ a b, s.OperandIs 0 ma a ∧ s.OperandIs 1 mb b ∧ taken a = true ∧
      (0 ≤ b ∧ b < (s.mem.length : Int)) ∧ t = { s with pc := b.toNat + h.row.adv }) ∨
    (∃ a b, s.OperandIs 0 ma a ∧ s.OperandIs 1 mb b ∧ taken a = false ∧
      t = { s with pc := s.pc + h.row.len + h.row.adv }) ∨
    (∃ e, t = s.raise (some s.pc) e ∧
      (s.OperandFails 0 ma e ∨ ∃ a, s.OperandIs 0 ma a ∧
        (s.OperandFails 1 mb e ∨ ∃ b, s.OperandIs 1 mb b ∧ taken a = true ∧
          ¬(0 ≤ b ∧ b < (s.mem.length : Int)) ∧ e = .memoryOutOfBounds b))) := by
  rcases s.settle_next ht with h1 | ⟨e, h1, rfl⟩
  · simp only [except_bind_ok, State.source_ok] at h1
    obtain ⟨a, ha, b, hb, h1⟩ := h1
    split at h1
    · split at h1
      · cases h1
        exact .inl ⟨a, b, ha, hb, ‹_›, State.inRange_iff.1 ‹_›, rfl⟩
      · cases h1
    · cases h1
      exact .inr (.inl ⟨a, b, ha, hb, Bool.eq_false_iff.2 ‹_›, rfl⟩)
  · refine .inr (.inr ⟨e, rfl, ?_⟩)
    simp only [except_bind_error, State.source_ok, State.source_error] at h1
    rcases h1 with h1 | ⟨a, ha, h1 | ⟨b, hb, h1⟩⟩
    · exact .inl h1
    · exact .inr ⟨a, ha, .inl h1⟩
    · split at h1
      · split at h1
        · cases h1
        · cases h1
          exact .inr ⟨a, ha, .inr ⟨b, hb, ‹_›, State.inRange_eq_false.1 (Bool.eq_false_iff.2 ‹_›), rfl⟩⟩
      · cases h1

/-- `jump` on operands that resolve. -/
theorem State.jump_resolved {s : State} {h : Handler} {ma mb : Mode} {taken : Int → Bool} {a b : Int}
    (ha : s.OperandIs 0 ma a) (hb : s.OperandIs 1 mb b) :
    s.jump h ma mb taken =
      if taken a then
        if s.inRange b then .next { s with pc := b.toNat + h.row.adv }
        else .next (s.raise (some s.pc) (.memoryOutOfBounds b))
      else .next { s with pc := s.pc + h.row.len + h.row.adv } := by
  unfold State.jump
  rw [State.source_ok.2 ha, State.source_ok.2 hb]
  simp only [bind, Except.bind]
  split
  · split <;> rfl
  · rfl

end Sys2Proof.Machine
end

