-- ==== Sys2Proof/Laws/Exec.lean ====
section
/-! SUPPORT. All that each meaning outside the shared shapes can do, and what no instruction touches. -/

namespace Sys2Proof.Machine

/-- ReadInput on an empty input FIFO (41_dispatch_cycle.md R177). -/
theorem execReadInput_empty {s : State} (h : s.inq = []) :
    execReadInput s = .next (s.setState .blockedOnInput) := by
  simp [execReadInput, h]

/-- All that ReadInput can do when the input FIFO holds an entry. -/
theorem execReadInput_next {s t : State} {v : Int} {rest : List Int} (h : s.inq = v :: rest)
    (ht : execReadInput s = .next t) :
    (∃ d, s.DestinationIs 0 d ∧
      t = { s with mem := Memory.write s.mem d v, inq := rest, pc := s.pc + 2 }) ∨
    ∃ e, s.DestinationFails 0 e ∧ t = s.raise (some s.pc) e := by
  simp only [execReadInput, h] at ht
  rcases s.settle_next ht with h1 | ⟨e, h1, rfl⟩
  · simp only [except_bind_ok, State.destination_ok, State.memWrite_ok] at h1
    obtain ⟨d, hd, u, ⟨-, rfl⟩, h1⟩ := h1
    cases h1
    exact .inl ⟨d, hd, rfl⟩
  · simp only [except_bind_error, State.destination_error, State.destination_ok,
      State.memWrite_error] at h1
    rcases h1 with h1 | ⟨d, hd, ⟨hn, -⟩ | ⟨u, -, h1⟩⟩
    · exact .inr ⟨e, h1, rfl⟩
    · exact absurd hd.2 hn
    · cases h1

/-- ReadInput with an entry and a destination that resolves. -/
theorem execReadInput_resolved {s : State} {v d : Int} {rest : List Int} (h : s.inq = v :: rest)
    (hd : s.DestinationIs 0 d) :
    execReadInput s =
      .next { s with mem := Memory.write s.mem d v, inq := rest, pc := s.pc + 2 } := by
  have hw : ({ s with inq := rest } : State).memWrite d v =
      .ok { s with inq := rest, mem := Memory.write s.mem d v } := State.memWrite_ok.2 ⟨hd.2, rfl⟩
  simp only [execReadInput, h]
  rw [State.destination_ok.2 hd]
  simp [bind, Except.bind, hw, State.advance, Handler.row]

/-- All that WriteOutput can do. -/
theorem execWriteOutput_next {s t : State} {ma : Mode} (ht : execWriteOutput ma s = .next t) :
    (∃ a, s.OperandIs 0 ma a ∧ atCap s.cfg.outDepth s.outq.length = false ∧
      t = { s with outq := s.outq ++ [a], pc := s.pc + 2 }) ∨
    (∃ e, t = s.raise (some s.pc) e ∧
      (s.OperandFails 0 ma e ∨ ∃ a, s.OperandIs 0 ma a ∧
        atCap s.cfg.outDepth s.outq.length = true ∧ e = .fifoOverflow a)) := by
  rcases s.settle_next ht with h1 | ⟨e, h1, rfl⟩
  · simp only [except_bind_ok, State.source_ok] at h1
    obtain ⟨a, ha, h1⟩ := h1
    split at h1
    · cases h1
    · cases h1
      exact .inl ⟨a, ha, Bool.eq_false_iff.2 ‹_›, rfl⟩
  · refine .inr ⟨e, rfl, ?_⟩
    simp only [except_bind_error, State.source_ok, State.source_error] at h1
    rcases h1 with h1 | ⟨a, ha, h1⟩
    · exact .inl h1
    · split at h1
      · cases h1; exact .inr ⟨a, ha, ‹_›, rfl⟩
      · cases h1

/-- WriteOutput on an operand that resolves. -/
theorem execWriteOutput_resolved {s : State} {ma : Mode} {a : Int} (ha : s.OperandIs 0 ma a) :
    execWriteOutput ma s =
      if atCap s.cfg.outDepth s.outq.length then .next (s.raise (some s.pc) (.fifoOverflow a))
      else .next { s with outq := s.outq ++ [a], pc := s.pc + 2 } := by
  unfold execWriteOutput
  rw [State.source_ok.2 ha]
  simp only [bind, Except.bind]
  split <;> rfl

theorem execHalt_eq (s : State) :
    execHalt s = .next { s with state := .halted, pc := s.pc + s.cfg.haltPcAdvance.val } := rfl

/-- No meaning stops: every instruction answers a next state, in every state. -/
theorem exec_next (i : Instr) (s : State) : ∃ t, exec i s = .next t := by
  have hs : ∀ r : Except ErrorInfo State, ∃ t, s.settle r = .next t := by
    intro r; cases r <;> exact ⟨_, rfl⟩
  cases i with
  | add ma mb => exact hs _
  | multiply ma mb => exact hs _
  | readInput =>
    cases h : s.inq with
    | nil => exact ⟨_, execReadInput_empty h⟩
    | cons v rest =>
      simp only [exec, execReadInput, h]
      exact hs _
  | writeOutput ma => exact hs _
  | jumpIfNonZero ma mb => exact hs _
  | jumpIfZero ma mb => exact hs _
  | lessThan ma mb => exact hs _
  | equals ma mb => exact hs _
  | halt => exact ⟨_, rfl⟩

/-- What no instruction touches: the configuration, the image, the command port and the size of memory. -/
theorem exec_keeps {i : Instr} {s t : State} (ht : exec i s = .next t) :
    t.cfg = s.cfg ∧ t.image = s.image ∧ t.cmds = s.cmds ∧ t.resps = s.resps ∧
      t.mem.length = s.mem.length := by
  have hw : ∀ {h ma mb f}, s.writeResult h ma mb f = .next t →
      t.cfg = s.cfg ∧ t.image = s.image ∧ t.cmds = s.cmds ∧ t.resps = s.resps ∧
        t.mem.length = s.mem.length := by
    intro h ma mb f ht
    rcases State.writeResult_next ht with ⟨a, b, d, v, -, -, -, -, rfl⟩ | ⟨e, rfl, -⟩ <;> simp
  have hj : ∀ {h ma mb f}, s.jump h ma mb f = .next t →
      t.cfg = s.cfg ∧ t.image = s.image ∧ t.cmds = s.cmds ∧ t.resps = s.resps ∧
        t.mem.length = s.mem.length := by
    intro h ma mb f ht
    rcases State.jump_next ht with ⟨a, b, -, -, -, -, rfl⟩ | ⟨a, b, -, -, -, rfl⟩ | ⟨e, rfl, -⟩ <;> simp
  cases i with
  | add ma mb => exact hw ht
  | multiply ma mb => exact hw ht
  | readInput =>
    cases h : s.inq with
    | nil =>
      have := execReadInput_empty h
      simp only [exec, this] at ht
      cases ht; simp
    | cons v rest =>
      rcases execReadInput_next h ht with ⟨d, -, rfl⟩ | ⟨e, -, rfl⟩ <;> simp
  | writeOutput ma =>
    rcases execWriteOutput_next ht with ⟨a, -, -, rfl⟩ | ⟨e, rfl, -⟩ <;> simp
  | jumpIfNonZero ma mb => exact hj ht
  | jumpIfZero ma mb => exact hj ht
  | lessThan ma mb => exact hw ht
  | equals ma mb => exact hw ht
  | halt => cases ht; simp

/-- An address that is stored to is in range. -/
theorem State.Stores.inRange {s : State} {i : Instr} {d v : Int} (h : s.Stores i d v) :
    0 ≤ d ∧ d < (s.mem.length : Int) := by
  cases i <;> first | exact h.1.2 | exact h.elim

/-- What an instruction that stores does, whole. -/
theorem exec_of_stores {s : State} {i : Instr} {d v : Int} (h : s.Stores i d v) :
    exec i s = .next { s with
      mem := Memory.write s.mem d v
      inq := if i = .readInput then s.inq.tail else s.inq
      pc := s.pc + i.handler.row.adv } := by
  cases i with
  | add ma mb =>
    obtain ⟨hd, a, b, ha, hb, hv⟩ := h
    simp [exec, execAdd, State.writeResult_resolved ha hb hd, hv, Instr.handler]
  | multiply ma mb =>
    obtain ⟨hd, a, b, ha, hb, hv⟩ := h
    simp [exec, execMultiply, State.writeResult_resolved ha hb hd, hv, Instr.handler]
  | lessThan ma mb =>
    obtain ⟨hd, a, b, ha, hb, rfl⟩ := h
    simp [exec, execLessThan, State.writeResult_resolved ha hb hd, truthWord, Instr.handler]
  | equals ma mb =>
    obtain ⟨hd, a, b, ha, hb, rfl⟩ := h
    simp [exec, execEquals, State.writeResult_resolved ha hb hd, truthWord, Instr.handler]
  | readInput =>
    obtain ⟨hd, hv⟩ := h
    obtain ⟨rest, hq⟩ := List.head?_eq_some_iff.1 hv
    simp [exec, execReadInput_resolved hq hd, hq, Instr.handler, Handler.row]
  | writeOutput ma => exact h.elim
  | jumpIfNonZero ma mb => exact h.elim
  | jumpIfZero ma mb => exact h.elim
  | halt => exact h.elim

/-- All that an instruction can do to memory. -/
theorem exec_mem {i : Instr} {s t : State} (ht : exec i s = .next t) :
    t.mem = s.mem ∨ ∃ d v, s.Stores i d v ∧ t.mem = Memory.write s.mem d v := by
  have hj : ∀ {h ma mb f}, s.jump h ma mb f = .next t → t.mem = s.mem := by
    intro h ma mb f ht
    rcases State.jump_next ht with ⟨a, b, -, -, -, -, rfl⟩ | ⟨a, b, -, -, -, rfl⟩ | ⟨e, rfl, -⟩ <;> rfl
  cases i with
  | add ma mb =>
    rcases State.writeResult_next ht with ⟨a, b, d, v, ha, hb, hd, hv, rfl⟩ | ⟨e, rfl, -⟩
    · exact .inr ⟨d, v, ⟨hd, a, b, ha, hb, hv⟩, rfl⟩
    · exact .inl rfl
  | multiply ma mb =>
    rcases State.writeResult_next ht with ⟨a, b, d, v, ha, hb, hd, hv, rfl⟩ | ⟨e, rfl, -⟩
    · exact .inr ⟨d, v, ⟨hd, a, b, ha, hb, hv⟩, rfl⟩
    · exact .inl rfl
  | lessThan ma mb =>
    rcases State.writeResult_next ht with ⟨a, b, d, v, ha, hb, hd, hv, rfl⟩ | ⟨e, rfl, -⟩
    · exact .inr ⟨d, v, ⟨hd, a, b, ha, hb, by simpa [truthWord] using hv.symm⟩, rfl⟩
    · exact .inl rfl
  | equals ma mb =>
    rcases State.writeResult_next ht with ⟨a, b, d, v, ha, hb, hd, hv, rfl⟩ | ⟨e, rfl, -⟩
    · exact .inr ⟨d, v, ⟨hd, a, b, ha, hb, by simpa [truthWord] using hv.symm⟩, rfl⟩
    · exact .inl rfl
  | readInput =>
    cases h : s.inq with
    | nil =>
      simp only [exec, execReadInput_empty h] at ht
      cases ht; exact .inl rfl
    | cons v rest =>
      rcases execReadInput_next h ht with ⟨d, hd, rfl⟩ | ⟨e, -, rfl⟩
      · exact .inr ⟨d, v, ⟨hd, by simp [h]⟩, rfl⟩
      · exact .inl rfl
  | writeOutput ma =>
    rcases execWriteOutput_next ht with ⟨a, -, -, rfl⟩ | ⟨e, rfl, -⟩ <;> exact .inl rfl
  | jumpIfNonZero ma mb => exact .inl (hj ht)
  | jumpIfZero ma mb => exact .inl (hj ht)
  | halt => cases ht; exact .inl rfl

end Sys2Proof.Machine
end

