-- ==== Sys2Proof/Laws/PerInstr.lean ====
section
/-! SUPPORT. Families of statements about the instructions as syntax, one lemma per constructor. -/

namespace Sys2Proof.Laws.RomRows

/-- The dispatch ROM has the instruction's row under the instruction's opcode; its LEN is 1 plus the number
of parameters, and each parameter is a source with a mode or the destination (10_state.md R44). -/
def Statement (i : Instr) : Prop :=
  romLookup i.handler.row.opcode = some i.handler.row ∧ i.handler.row.len = i.params + 1 ∧
    i.handler.row.sources = List.range i.modes.length ∧
    i.params = i.modes.length + (if i.handler.row.dest.isSome then 1 else 0)

theorem add (ma mb : Mode) : Statement (.add ma mb) := ⟨rfl, rfl, rfl, rfl⟩
theorem multiply (ma mb : Mode) : Statement (.multiply ma mb) := ⟨rfl, rfl, rfl, rfl⟩
theorem readInput : Statement .readInput := ⟨rfl, rfl, rfl, rfl⟩
theorem writeOutput (ma : Mode) : Statement (.writeOutput ma) := ⟨rfl, rfl, rfl, rfl⟩
theorem jumpIfNonZero (ma mb : Mode) : Statement (.jumpIfNonZero ma mb) := ⟨rfl, rfl, rfl, rfl⟩
theorem jumpIfZero (ma mb : Mode) : Statement (.jumpIfZero ma mb) := ⟨rfl, rfl, rfl, rfl⟩
theorem lessThan (ma mb : Mode) : Statement (.lessThan ma mb) := ⟨rfl, rfl, rfl, rfl⟩
theorem equals (ma mb : Mode) : Statement (.equals ma mb) := ⟨rfl, rfl, rfl, rfl⟩
theorem halt : Statement .halt := ⟨rfl, rfl, rfl, rfl⟩

end Sys2Proof.Laws.RomRows
end

