-- ==== Sys2Proof/Laws/Step.lean ====
section
/-! SUPPORT. All that one step can do: inside a Run a decoded instruction or an error, between Runs one command
or none. -/

namespace Sys2Proof.Machine

theorem State.inRun_iff {s : State} : s.inRun = true ↔ s.state = .running ∧ s.fault = none := by
  simp [State.inRun]

theorem step_inRun {s : State} (h : s.inRun = true) : step s = s.cycle := by simp [step, h]

theorem step_between {s : State} (h : s.inRun = false) : step s = s.takeCommand := by simp [step, h]

theorem State.inRun_of_fault {s : State} {f : FaultRecord} (h : s.fault = some f) : s.inRun = false := by
  simp [State.inRun, h]

theorem State.fetchDecode_ok {s : State} {i : Instr} :
    s.fetchDecode = .ok i ↔ ∃ w, Memory.read s.mem (s.pc : Int) = some w ∧ decode w = .ok i := by
  simp only [State.fetchDecode, except_bind_ok, State.memRead_ok]

theorem State.fetchDecode_error {s : State} {e : ErrorInfo} :
    s.fetchDecode = .error e ↔
      (Memory.read s.mem (s.pc : Int) = none ∧ e = .memoryOutOfBounds (s.pc : Int)) ∨
      ∃ w, Memory.read s.mem (s.pc : Int) = some w ∧ decode w = .error e := by
  simp only [State.fetchDecode, except_bind_error, State.memRead_ok, State.memRead_error]

theorem State.endCycle_fault {s : State} {f : FaultRecord} (h : s.fault = some f) :
    s.endCycle = s.respond (.error f) := by
  simp [State.endCycle, h]

theorem State.endCycle_running {s : State} (h : s.fault = none) (h' : s.state = .running) :
    s.endCycle = s := by
  simp [State.endCycle, h, h']

theorem State.endCycle_stopped {s : State} (h : s.fault = none) (h' : s.state ≠ .running) :
    s.endCycle = s.respond (.state s.state) := by
  simp [State.endCycle, h, h']

/-- The end of a cycle only answers: every field but the responses is as it was. -/
theorem State.endCycle_eq (s : State) : ∃ rs, s.endCycle = { s with resps := rs } := by
  unfold State.endCycle
  split
  · exact ⟨_, rfl⟩
  · split
    · exact ⟨s.resps, rfl⟩
    · exact ⟨_, rfl⟩

/-- All that a step inside a Run can do. -/
theorem State.cycle_next {s t : State} (h : s.cycle = .next t) :
    (∃ e, s.fetchDecode = .error e ∧ t = (s.raise (some s.pc) e).endCycle) ∨
    ∃ i u, s.fetchDecode = .ok i ∧ exec i s = .next u ∧ t = u.endCycle := by
  unfold State.cycle at h
  split at h
  · rename_i e he
    cases h; exact .inl ⟨e, he, rfl⟩
  · rename_i i hi
    obtain ⟨u, hu⟩ := exec_next i s
    rw [hu] at h
    cases h; exact .inr ⟨i, u, hi, hu, rfl⟩

/-- A step inside a Run always answers a next state. -/
theorem State.cycle_isNext (s : State) : ∃ t, s.cycle = .next t := by
  unfold State.cycle
  split
  · exact ⟨_, rfl⟩
  · rename_i i _
    obtain ⟨u, hu⟩ := exec_next i s
    exact ⟨_, by rw [hu]⟩

/-- All that taking one command can do. -/
theorem State.perform_next {s t : State} {c : Command} (h : s.perform c = .next t) :
    (t = s.accept c ∧ ((∃ txt, c = .construct txt) ∨ (s.image ≠ [] ∧ c = .reboot) ∨
      (s.image ≠ [] ∧ s.fault = none ∧ c.badWord s.cfg = none))) ∨
    ∃ f, s.fault = some f ∧ s.image ≠ [] ∧ c ≠ .reboot ∧ (∀ txt, c ≠ .construct txt) ∧
      t = s.respond (.error f) := by
  unfold State.perform at h
  split at h
  · rename_i hc
    cases h
    cases c <;> simp_all [Command.isConstruct]
  · rename_i hc
    have hc' : ∀ txt, c ≠ .construct txt := by rintro txt rfl; simp [Command.isConstruct] at hc
    split at h
    · cases h
    · rename_i hi
      have hi' : s.image ≠ [] := by simpa using hi
      split at h
      · rename_i f hf
        split at h
        · cases h; exact .inl ⟨rfl, .inr (.inl ⟨hi', ‹_›⟩)⟩
        · cases h; exact .inr ⟨f, hf, hi', ‹_›, hc', rfl⟩
      · rename_i hf
        split at h
        · cases h
        · cases h; exact .inl ⟨rfl, .inr (.inr ⟨hi', hf, ‹_›⟩)⟩

/-- All that a step between Runs can do. -/
theorem State.takeCommand_next {s t : State} (h : s.takeCommand = .next t) :
    (s.cmds = [] ∧ t = s) ∨
    ∃ c rest, s.cmds = c :: rest ∧ ({ s with cmds := rest } : State).perform c = .next t := by
  unfold State.takeCommand at h
  split at h
  · cases h; exact .inl ⟨‹_›, rfl⟩
  · exact .inr ⟨_, _, ‹_›, h⟩

@[simp] theorem stepN_zero (s : State) : stepN 0 s = .next s := rfl

theorem stepN_succ (k : Nat) (s : State) :
    stepN (k + 1) s =
      match step s with
      | .next t => stepN k t
      | .fault f => .fault f
      | .refused r => .refused r := rfl

theorem stepN_two {s t u : State} (h : step s = .next t) (h' : step t = .next u) :
    stepN 2 s = .next u := by
  simp [stepN_succ, h, h']

/-- `stepN` is the host's run of the machine. -/
theorem stepN_eq_core_run (k : Nat) (s : State) : stepN k s = Sys2Proof.core.run k s := by
  induction k generalizing s with
  | zero => rfl
  | succ k ih =>
    have e := Host.Core.run.eq_2 Sys2Proof.core s k
    rw [stepN_succ]
    cases hs : step s with
    | next t =>
      have hs' : Sys2Proof.core.step s = .next t := hs
      rw [hs'] at e
      exact (ih t).trans e.symm
    | fault f =>
      have hs' : Sys2Proof.core.step s = .fault f := hs
      rw [hs'] at e
      exact e.symm
    | refused r =>
      have hs' : Sys2Proof.core.step s = .refused r := hs
      rw [hs'] at e
      exact e.symm

end Sys2Proof.Machine
end

