-- ==== Sys2Proof/Tests/Slice0.lean ====
section
/-! SUPPORT. The model's own tests. Expected results come from spec/95_test_vectors.md (the vector's id stands in
the comment) or are worked by hand from the rule named. The `witness_` theorems show, for each statement with
hypotheses, a concrete state and operands that meet them together, one for each clause. -/

namespace Sys2Proof.Tests

open Sys2Proof Sys2Proof.Machine

/-- An instance with the given cells loaded and a Run in progress. -/
def prog (cells : List Int) : State :=
  { State.reset with mem := cells, image := cells, state := .running }

/-- An instance with the given cells loaded, between Runs, with commands to take. -/
def between (cells : List Int) (cmds : List Command) : State :=
  { State.reset with mem := cells, image := cells, cmds := cmds }

/-- The same, poisoned by an UnknownOpcode at cell 0. -/
def poisoned (cells : List Int) (cmds : List Command) : State :=
  { between cells cmds with fault := some ⟨.unknownOpcode 0, some 0⟩, state := .running }

/-- The state after one step. -/
def after (s : State) : Option State := match step s with | .next t => some t | _ => none

/-- What a host sees of a step: the answers so far. -/
def answers (s : State) : Option (List Response) := (after s).map State.resps

/-! ### WellFormed refuses each ill-formed term -/

theorem test_wf_reference : Config.reference.legal = true := by decide
theorem test_wf_wordBits : ({ Config.reference with wordBits := some 15 } : Config).legal = false := by decide
theorem test_wf_memMax : ({ Config.reference with memMax := some 0 } : Config).legal = false := by decide
theorem test_wf_inDepth : ({ Config.reference with inDepth := some 0 } : Config).legal = false := by decide
theorem test_wf_outDepth : ({ Config.reference with outDepth := some 0 } : Config).legal = false := by decide
theorem test_wf_pcBits_unbounded : ({ Config.reference with pcBits := some 8 } : Config).legal = false := by decide
theorem test_wf_pcBits_narrow :
    ({ Config.reference with memMax := some 256, pcBits := some 8 } : Config).legal = false := by decide
theorem test_wf_pcBits_wide :
    ({ Config.reference with memMax := some 255, pcBits := some 8 } : Config).legal = true := by decide
theorem test_wf_image_empty : imageWf Config.reference [] = false := by decide
theorem test_wf_image_long : imageWf { Config.reference with memMax := some 4 } [1, 0, 0, 0, 99] = false := by decide
theorem test_wf_image_word : imageWf Config.reference [9223372036854775808] = false := by decide
theorem test_wf_params_count : Instr.wf Config.reference (.add .position .position) [1, 2] = false := by decide
theorem test_wf_params_word : Instr.wf Config.reference .readInput [-9223372036854775809] = false := by decide

/-! ### Decoding: words written out digit by digit from 30_encoding.md R91, R96, R98, R103 -/

/-- Opcode 01, digit 2 = 1, digit 3 = 0. -/
theorem test_decode_add : decode 101 = .ok (.add .immediate .position) := by decide
/-- Opcode 02, digit 2 = 0, digit 3 = 1 (R91's own example). -/
theorem test_decode_multiply : decode 1002 = .ok (.multiply .position .immediate) := by decide
/-- Opcode 03; digit 2 is a destination's and is not examined (R96; I6). -/
theorem test_decode_readInput : decode 103 = .ok .readInput := by decide
theorem test_decode_writeOutput : decode 104 = .ok (.writeOutput .immediate) := by decide
theorem test_decode_jumpIfNonZero : decode 1105 = .ok (.jumpIfNonZero .immediate .immediate) := by decide
theorem test_decode_jumpIfZero : decode 1006 = .ok (.jumpIfZero .position .immediate) := by decide
theorem test_decode_lessThan : decode 107 = .ok (.lessThan .immediate .position) := by decide
theorem test_decode_equals : decode 1108 = .ok (.equals .immediate .immediate) := by decide
/-- R98's examples. -/
theorem test_decode_halt : decode 199 = .ok .halt ∧ decode 1099 = .ok .halt := by decide
theorem test_decode_extra_digits : decode 100001 = .ok (.add .position .position) ∧
    decode 90001 = .ok (.add .position .position) := by decide
/-- V4, V6, V8. -/
theorem test_decode_unknown : decode 9 = .error (.unknownOpcode 9) ∧
    decode 100 = .error (.unknownOpcode 100) ∧ decode (-99) = .error (.unknownOpcode (-99)) := by decide
/-- V9, V11, V12, I7. -/
theorem test_decode_bad_mode : decode 201 = .error (.invalidAddressingMode 0 201) ∧
    decode 2101 = .error (.invalidAddressingMode 1 2101) ∧
    decode 2201 = .error (.invalidAddressingMode 0 2201) ∧
    decode 204 = .error (.invalidAddressingMode 0 204) := by decide
/-- R110: the encodings of the assembly examples. -/
theorem test_encode_examples : encode (.multiply .position .immediate) [4, 3, 4] = [1002, 4, 3, 4] ∧
    encode (.lessThan .immediate .immediate) [-5, 3, 5] = [1107, -5, 3, 5] ∧ encode .halt [] = [99] := by decide
theorem test_decodeTableWord : decodeTableWord 8 4 = some (.writeOutput .position) ∧
    decodeTableWord 16 1105 = some (.jumpIfNonZero .immediate .immediate) ∧
    decodeTableWord 8 0 = none := by decide
/-- The first step after reset runs the placed instruction: Halt, with PC left at it (R280). -/
theorem test_withFetchWord : (after (State.reset.withFetchWord 8 99)).map (fun t => (t.state, t.pc)) =
    some (.halted, 0) := by decide
theorem test_withFetchWord_add : (after (State.reset.withFetchWord 8 1)).map (fun t => (t.mem, t.pc)) =
    some ([2, 0, 0, 0], 4) := by decide

/-! ### One step of each instruction -/

/-- A1: negative immediate. -/
theorem test_add_negative : (after (prog [1101, 100, -1, 4, 0])).map (fun t => (t.mem, t.pc)) =
    some ([1101, 100, -1, 4, 99], 4) := by decide
/-- A8: WMAX + 1 traps. -/
theorem test_add_overflow : (after (prog [1101, 9223372036854775807, 1, 5, 99, 0])).map State.fault =
    some (some ⟨.arithmeticOverflow 9223372036854775808, some 0⟩) := by decide
/-- A9: the same under wrap. -/
theorem test_add_wrap :
    (after { prog [1101, 9223372036854775807, 1, 5, 99, 0] with
      cfg := { Config.reference with overflow := .wrap } }).map (fun t => t.mem[5]?) =
    some (some (-9223372036854775808)) := by decide
/-- A2: signed product. -/
theorem test_multiply_signed : (after (prog [1102, -3, 7, 5, 99, 0])).map (fun t => t.mem[5]?) =
    some (some (-21)) := by decide
/-- A4: the destination aliases an operand. -/
theorem test_multiply_alias : (after (prog [1002, 5, 0, 5, 99, -7])).map (fun t => t.mem[5]?) =
    some (some 0) := by decide
/-- I8: it blocks before its parameter read. -/
theorem test_readInput_blocks_at_end : (after (prog [3])).map (fun t => (t.state, t.pc, t.resps)) =
    some (.blockedOnInput, 0, [.state .blockedOnInput]) := by decide
/-- I6: the oldest entry is popped and written. -/
theorem test_readInput_pops : (after { prog [103, 3, 99, 0] with inq := [9, 5] }).map
    (fun t => (t.mem, t.inq, t.pc)) = some ([103, 3, 99, 9], [5], 2) := by decide
/-- I5. -/
theorem test_writeOutput_immediate : (after (prog [104, -7, 99])).map (fun t => (t.outq, t.pc)) =
    some ([-7], 2) := by decide
/-- I11: the second push to a full FIFO. -/
theorem test_writeOutput_full :
    (after { prog [104, 1, 104, 2, 99] with pc := 2, outq := [1], cfg := { Config.reference with outDepth := some 1 } }).map
      State.fault = some (some ⟨.fifoOverflow 2, some 2⟩) := by decide
/-- J4: taken on a negative value. -/
theorem test_jumpIfNonZero_negative : (after { prog [3, 3, 1105, -3, 9, 0, 0, 0, 0, 0] with pc := 2 }).map State.pc =
    some 9 := by decide
/-- J10: a jump that is not taken resolves its target. -/
theorem test_jumpIfNonZero_resolves : (after (prog [5, 4, 99, 99, 0])).map State.fault =
    some (some ⟨.memoryOutOfBounds 99, some 0⟩) := by decide
/-- J5. -/
theorem test_jumpIfZero_taken : (after (prog [1106, 0, 0, 99])).map State.pc = some 0 := by decide
/-- J9: not taken in the last three cells, PC becomes N. -/
theorem test_jumpIfZero_to_end : (after (prog [1106, 1, 0])).map State.pc = some 3 := by decide
/-- K8: signed comparison. -/
theorem test_lessThan_signed : (after (prog [1107, -5, 3, 5, 99, 7])).map (fun t => t.mem[5]?) =
    some (some 1) := by decide
/-- K12: equal operands, the result overwrites b's cell. -/
theorem test_lessThan_equal : (after (prog [7, 5, 6, 6, 99, 3, 3])).map (fun t => t.mem[6]?) =
    some (some 0) := by decide
/-- K9. -/
theorem test_equals_negative : (after (prog [1108, -4, -4, 5, 99, 7])).map (fun t => t.mem[5]?) =
    some (some 1) := by decide
/-- H2, the first Run: HALT_PC_ADVANCE = 1. -/
theorem test_halt_advance :
    (after { prog [99] with cfg := { Config.reference with haltPcAdvance := 1 } }).map (fun t => (t.state, t.pc)) =
    some (.halted, 1) := by decide

/-! ### Other steps -/

/-- V16, second step: the fetch at PC = N. -/
theorem test_fetch_at_end : answers { prog [1, 0, 0, 0] with pc := 4 } =
    some [.error ⟨.memoryOutOfBounds 4, some 4⟩] := by decide
/-- A17 and A15: the first failure is reported. -/
theorem test_destination_out_of_range : (after (prog [1101, 1, 1, 7, 99])).map State.fault =
    some (some ⟨.memoryOutOfBounds 7, some 0⟩) := by decide
theorem test_operand_before_next_cell : (after (prog [1, 99])).map State.fault =
    some (some ⟨.memoryOutOfBounds 99, some 0⟩) := by decide
/-- C2, C3: ReadMemory out of range raises and poisons; then everything is refused with the record. -/
theorem test_readMemory_raises : answers (between [1, 0, 0, 0, 99] [.readMemory 5]) =
    some [.error ⟨.memoryOutOfBounds 5, none⟩] := by decide
theorem test_poisoned_refuses : answers (poisoned [0] [.readMemory 0]) =
    some [.error ⟨.unknownOpcode 0, some 0⟩] := by decide
/-- C4: Reboot clears the record. -/
theorem test_reboot : (after { poisoned [1, 0] [.reboot] with mem := [7, 7], pc := 1 }).map
    (fun t => (t.mem, t.pc, t.state, t.fault)) = some ([1, 0], 0, .initialized, none) := by decide
/-- C7, C8. -/
theorem test_output_empty : answers (between [99] [.output]) = some [.error ⟨.emptyOutputRead, none⟩] := by decide
theorem test_input_full :
    answers { between [3, 0, 99] [.input 2] with inq := [1], cfg := { Config.reference with inDepth := some 1 } } =
    some [.error ⟨.fifoOverflow 2, none⟩] := by decide
/-- Construct of T1, from reset. -/
theorem test_construct : (after { State.reset with cmds := [.construct "1,0,0,0,99".toList] }).map
    (fun t => (t.mem, t.image, t.state)) = some ([1, 0, 0, 0, 99], [1, 0, 0, 0, 99], .initialized) := by decide
/-- T2, T3, T5, T7, T10, T11, T13, T14: the index or count recorded is R300's. -/
theorem test_text_ws : loadProgram Config.reference " 1, 0 ,0,0,99\n".toList = .ok [1, 0, 0, 0, 99] := by decide
theorem test_text_no_ws : loadProgram { Config.reference with textWs := false } " 1, 0".toList =
    .error (.invalidProgramText 0) := by decide
theorem test_text_empty_token : loadProgram Config.reference "1,,2".toList = .error (.invalidProgramText 1) := by decide
theorem test_text_plus : loadProgram Config.reference "+1,0".toList = .error (.invalidProgramText 0) := by decide
theorem test_text_leading_zero : loadProgram Config.reference "0099,-0".toList = .ok [99, 0] := by decide
theorem test_text_not_word : loadProgram Config.reference "9223372036854775808".toList =
    .error (.invalidProgramText 0) := by decide
theorem test_text_too_long : loadProgram { Config.reference with memMax := some 4 } "1,0,0,0,99".toList =
    .error (.invalidProgramText 5) := by decide
theorem test_text_split_digits : loadProgram Config.reference "1\n2".toList = .error (.invalidProgramText 0) := by decide
/-- E11: the layout that R144 recommends. -/
theorem test_recommended_dump : recommendedDump 4 [2, 0, 0, 0, 99] = "[4] 2, 0, 0, 0, 99".toList := by decide
/-- R110's examples and R112's pseudo-instruction, assembled from text. -/
theorem test_assemble_text :
    assembleText "loop: JumpIfZero [23], #20 ; done\nLessThan #-5, #3, [5]\nJump #loop\n.word 6, -7".toList =
    some [1006, 23, 20, 1107, -5, 3, 5, 1105, 1, 0, 6, -7] := by decide
/-- R110: a destination written `#e` is an assembly error. -/
theorem test_assemble_destination : assembleText "ReadInput #0".toList = none := by decide
/-- P5, steps 3 and 4: the Word that A answered is input to B. -/
theorem test_pump : (Instances.pump [{ between [99] [] with resps := [.word 6] }, between [3, 0] []] 0 1).map
    State.cmds = [[], [.input 6]] := by decide

/-- R300: an UnknownOpcode records code 2, the PC and the word (V4); after Reboot the code is 0. -/
theorem test_fault_triple : ((after (prog [9])).bind State.fault).map FaultRecord.triple = some (2, some 0, [9]) ∧
    (after (poisoned [0] [.reboot])).map State.faultCode = some 0 := by decide

/-! ### Witnesses -/

theorem witness_UnknownOpcodeExactly : (prog [98]).state = .running ∧ (prog [98]).fault = none ∧
    Memory.read (prog [98]).mem ((prog [98]).pc : Int) = some 98 ∧ (9 ≤ (98 : Int) % 100 ∧ (98 : Int) % 100 ≤ 98) := by
  decide
theorem witness_InvalidAddressingModeExactly : (prog [204]).state = .running ∧ (prog [204]).fault = none ∧
    Memory.read (prog [204]).mem ((prog [204]).pc : Int) = some 204 ∧
    decode 204 = .error (.invalidAddressingMode 0 204) := by decide
theorem witness_UnexaminedDigitsIgnored : (0 : Int) ≤ 10001 ∧ (0 : Int) ≤ 1 ∧ Handler.add.row ∈ dispatchRom ∧
    (10001 : Int).toNat % 100 = 1 ∧ (1 : Int).toNat % 100 = 1 ∧
    ∀ k ∈ Handler.add.row.sources, digit (10001 : Int).toNat (k + 2) = digit (1 : Int).toNat (k + 2) := by decide
theorem witness_DecodeOfEncode : Instr.wf Config.reference (.add .immediate .position)
    [9223372036854775807, -9223372036854775808, 0] = true := by decide
theorem witness_CanonicalWordIsLeast : decode 90001 = .ok (.add .position .position) := by decide
/-- One witness for each clause: the Run goes on, ends, raises. -/
theorem witness_StepRunsDecodedInstruction :
    (∃ t, exec (.writeOutput .immediate) (prog [104, 1]) = .next t ∧ t.fault = none ∧ t.state = .running) ∧
    (∃ t, exec .halt (prog [99]) = .next t ∧ t.fault = none ∧ t.state ≠ .running) ∧
    (∃ t, exec (.writeOutput .position) (prog [4]) = .next t ∧ t.fault ≠ none) ∧
    Memory.read (prog [104, 1]).mem 0 = some 104 ∧ decode 104 = .ok (.writeOutput .immediate) :=
  ⟨⟨_, rfl, rfl, rfl⟩, ⟨_, rfl, rfl, by decide⟩, ⟨_, rfl, by decide⟩, rfl, by decide⟩
theorem witness_FetchOutOfRangeRaises : (prog []).state = .running ∧ (prog []).fault = none ∧
    ¬(((prog []).pc : Int) < ((prog []).mem.length : Int)) := by decide
theorem witness_StepRaisesExactlyFirstError :
    (prog [4]).state = .running ∧ (prog [4]).fault = none ∧ (prog [4]).StepError (.memoryOutOfBounds 1) :=
  ⟨rfl, rfl, .inr ⟨4, rfl, .inr ⟨.writeOutput .position, by decide, by decide,
    .inl ⟨0, by decide, fun _ h => absurd h (Nat.not_lt_zero _), .inl ⟨rfl, rfl⟩⟩⟩⟩⟩
/-- Result, overflow under trap, overflow under wrap (A9), and an error of the step. -/
theorem witness_AddStoresSum :
    (let s := prog [1101, 9223372036854775807, 0, 3]
     s.OperandIs 0 .immediate 9223372036854775807 ∧ s.OperandIs 1 .immediate 0 ∧ s.DestinationIs 2 3 ∧
       s.cfg.fits (9223372036854775807 + 0) = true) ∧
    (let s := prog [1101, 9223372036854775807, 1, 3]
     s.OperandIs 0 .immediate 9223372036854775807 ∧ s.OperandIs 1 .immediate 1 ∧ s.DestinationIs 2 3 ∧
       s.cfg.fits (9223372036854775807 + 1) = false ∧ s.cfg.overflow = .trap) ∧
    (let c := { Config.reference with overflow := .wrap }
     c.legal = true ∧ c.wordBits = some 64 ∧ c.fits (9223372036854775807 + 1) = false ∧
       c.fits (-9223372036854775808) = true ∧
       (-9223372036854775808 : Int) % ((2 ^ 64 : Nat) : Int) =
         (9223372036854775807 + 1) % ((2 ^ 64 : Nat) : Int)) ∧
    (prog [1, 4]).FirstFailure (.add .position .position) (.memoryOutOfBounds 4) :=
  ⟨⟨rfl, rfl, ⟨rfl, by decide, by decide⟩, by decide⟩,
    ⟨rfl, rfl, ⟨rfl, by decide, by decide⟩, by decide, rfl⟩, by decide,
    ⟨0, by decide, fun _ h => absurd h (Nat.not_lt_zero _), .inr ⟨rfl, 4, rfl, rfl, rfl⟩⟩⟩
theorem witness_MultiplyStoresProduct :
    (let s := prog [2, 4, 4, 0, -3]
     s.OperandIs 0 .position (-3) ∧ s.OperandIs 1 .position (-3) ∧ s.DestinationIs 2 0 ∧
       s.cfg.fits (-3 * -3) = true) ∧
    (let s := prog [1102, 4611686018427387904, 2, 0]
     s.OperandIs 0 .immediate 4611686018427387904 ∧ s.OperandIs 1 .immediate 2 ∧ s.DestinationIs 2 0 ∧
       s.cfg.fits (4611686018427387904 * 2) = false ∧ s.cfg.overflow = .trap) ∧
    (let c := { Config.reference with overflow := .wrap }
     c.legal = true ∧ c.fits (4611686018427387904 * 2) = false ∧ c.fits (-9223372036854775808) = true ∧
       (-9223372036854775808 : Int) % ((2 ^ 64 : Nat) : Int) =
         (4611686018427387904 * 2) % ((2 ^ 64 : Nat) : Int)) :=
  ⟨⟨⟨4, rfl, rfl⟩, ⟨4, rfl, rfl⟩, ⟨rfl, by decide, by decide⟩, by decide⟩,
    ⟨rfl, rfl, ⟨rfl, by decide, by decide⟩, by decide, rfl⟩, by decide⟩
theorem witness_ReadInputPopsOrBlocks :
    (prog [3]).inq = [] ∧ ({ prog [3, 1] with inq := [9] } : State).DestinationIs 0 1 ∧
    ({ prog [3, 2] with inq := [9] } : State).DestinationFails 0 (.memoryOutOfBounds 2) :=
  ⟨rfl, ⟨rfl, by decide, by decide⟩, .inr ⟨2, rfl, by decide, rfl⟩⟩
theorem witness_WriteOutputPushes :
    (prog [104, 7]).OperandIs 0 .immediate 7 ∧ (prog [104, 7]).cfg.outDepth ≠ some (prog [104, 7]).outq.length ∧
    (let s := { prog [104, 7] with outq := [1], cfg := { Config.reference with outDepth := some 1 } }
     s.OperandIs 0 .immediate 7 ∧ s.cfg.outDepth = some s.outq.length) ∧
    (prog [4, 2]).OperandFails 0 .position (.memoryOutOfBounds 2) :=
  ⟨rfl, by decide, ⟨rfl, rfl⟩, .inr ⟨rfl, 2, rfl, rfl, rfl⟩⟩
/-- Taken to the last cell, taken out of range by one, not taken. -/
theorem witness_JumpIfNonZeroJumps :
    ((prog [1105, -1, 2]).OperandIs 0 .immediate (-1) ∧ (prog [1105, -1, 2]).OperandIs 1 .immediate 2 ∧
      (2 : Int) < ((prog [1105, -1, 2]).mem.length : Int)) ∧
    ((prog [1105, -1, 3]).OperandIs 1 .immediate 3 ∧
      ¬(0 ≤ (3 : Int) ∧ (3 : Int) < ((prog [1105, -1, 3]).mem.length : Int))) ∧
    ((prog [1105, 0, 3]).OperandIs 0 .immediate 0 ∧ (prog [1105, 0, 3]).OperandIs 1 .immediate 3) ∧
    (prog [1105, 0]).FirstFailure (.jumpIfNonZero .immediate .immediate) (.memoryOutOfBounds 2) := by
  refine ⟨⟨rfl, rfl, by decide⟩, ⟨rfl, by decide⟩, ⟨rfl, rfl⟩, 1, by decide, fun j hj => ?_, .inl ⟨rfl, rfl⟩⟩
  obtain rfl : j = 0 := by omega
  exact ⟨0, rfl⟩
theorem witness_JumpIfZeroJumps :
    ((prog [1106, 0, 2]).OperandIs 0 .immediate 0 ∧ (prog [1106, 0, 2]).OperandIs 1 .immediate 2) ∧
    ((prog [1106, 0, -1]).OperandIs 1 .immediate (-1) ∧
      ¬(0 ≤ (-1 : Int) ∧ (-1 : Int) < ((prog [1106, 0, -1]).mem.length : Int))) ∧
    ((prog [1006, 0, 3]).OperandIs 0 .position 1006 ∧ (prog [1006, 0, 3]).OperandIs 1 .immediate 3) :=
  ⟨⟨rfl, rfl⟩, ⟨rfl, by decide⟩, ⟨⟨0, rfl, rfl⟩, rfl⟩⟩
theorem witness_LessThanStoresTruth :
    (prog [1107, -1, 0, 0]).OperandIs 0 .immediate (-1) ∧ (prog [1107, -1, 0, 0]).OperandIs 1 .immediate 0 ∧
    (prog [1107, -1, 0, 0]).DestinationIs 2 0 ∧ (-1 : Int) < 0 ∧ ¬((3 : Int) < 3) :=
  ⟨rfl, rfl, ⟨rfl, by decide, by decide⟩, by decide, by decide⟩
theorem witness_EqualsStoresTruth :
    (prog [1108, -4, -4, 0]).OperandIs 0 .immediate (-4) ∧ (prog [1108, -4, -4, 0]).OperandIs 1 .immediate (-4) ∧
    (prog [1108, -4, -4, 0]).DestinationIs 2 0 ∧ (prog [1108, -4, 4, 0]).OperandIs 1 .immediate 4 :=
  ⟨rfl, rfl, ⟨rfl, by decide, by decide⟩, rfl⟩
theorem witness_HaltStopsRun : (prog [199]).state = .running ∧ (prog [199]).fault = none ∧
    ∃ w, Memory.read (prog [199]).mem ((prog [199]).pc : Int) = some w ∧ decode w = .ok .halt :=
  ⟨rfl, rfl, 199, rfl, by decide⟩
/-- The boundary results of the reference width, and the unbounded width. -/
theorem witness_StoreLaw : Config.reference.legal = true ∧ Config.reference.fits 9223372036854775807 = true ∧
    Config.reference.fits (-9223372036854775808) = true ∧ Config.reference.fits 9223372036854775808 = false ∧
    ({ Config.reference with wordBits := none } : Config).legal = true ∧
    ({ Config.reference with overflow := .wrap } : Config).legal = true := by decide
theorem witness_FourCellFrame : ∃ t, exec (.equals .position .position) (prog [8, 0, 0, 3]) = .next t ∧
    (prog [8, 0, 0, 3]).fault = none ∧ t.fault = none := ⟨_, rfl, rfl, rfl⟩
theorem witness_NonStoringFrame : (∃ t, exec (.writeOutput .position) (prog [4, 0]) = .next t ∧ t.fault = none) ∧
    (∃ t, exec (.jumpIfZero .position .position) (prog [6, 0, 0]) = .next t ∧ t.fault = none) ∧
    ∃ t, exec .halt (prog [99]) = .next t ∧ t.fault = none := ⟨⟨_, rfl, rfl⟩, ⟨_, rfl, rfl⟩, ⟨_, rfl, rfl⟩⟩
theorem witness_ReadInputFrame : (∃ t, exec .readInput (prog [3, 0]) = .next t ∧ t.fault = none) ∧
    ∃ t, exec .readInput { prog [3, 0] with inq := [9] } = .next t ∧ t.fault = none :=
  ⟨⟨_, rfl, rfl⟩, ⟨_, rfl, rfl⟩⟩
theorem witness_AccessesAreBoundChecked : ¬(0 ≤ (2 : Int) ∧ (2 : Int) < ((prog [3, 0]).mem.length : Int)) ∧
    (0 ≤ (1 : Int) ∧ (1 : Int) < ((prog [3, 0]).mem.length : Int)) := by decide
/-- An Add whose destination is the next instruction's cell, a self-overwrite, a ReadInput onto the cell after it,
and a write to a parameter cell of the next instruction. -/
theorem witness_WrittenWordIsFetchedNext :
    (prog [1101, 1, 98, 4, 1]).Stores (.add .immediate .immediate) 4 99 ∧
    (prog [1101, 1, 1, 0, 99]).Stores (.add .immediate .immediate) 0 2 ∧
    ({ prog [3, 2, 0] with inq := [99, 7] } : State).Stores .readInput 2 99 ∧
    (prog [1107, -1, 0, 5, 104, 0]).Stores (.lessThan .immediate .immediate) 5 1 ∧
    (prog [1108, -1, 0, 4, 9]).Stores (.equals .immediate .immediate) 4 0 ∧
    (prog [1102, -1, 7, 0]).Stores (.multiply .immediate .immediate) 0 (-7) :=
  ⟨⟨⟨rfl, by decide, by decide⟩, 1, 98, rfl, rfl, by decide⟩, ⟨⟨rfl, by decide, by decide⟩, 1, 1, rfl, rfl, by decide⟩,
    ⟨⟨rfl, by decide, by decide⟩, rfl⟩, ⟨⟨rfl, by decide, by decide⟩, -1, 0, rfl, rfl, by decide⟩,
    ⟨⟨rfl, by decide, by decide⟩, -1, 0, rfl, rfl, by decide⟩, ⟨⟨rfl, by decide, by decide⟩, -1, 7, rfl, rfl, by decide⟩⟩
/-- An instance in a Run satisfies the invariant. -/
theorem witness_inv_running : (prog [3, 0]).Inv :=
  ⟨by decide, by decide, by decide, by decide, by decide, by decide, by decide, by decide, by decide, by decide,
    fun h => absurd h (by decide), fun _ _ h => nomatch h⟩
theorem witness_StepKeepsInvariant : (prog [3, 0]).Inv ∧ ∃ t, step (prog [3, 0]) = .next t :=
  ⟨witness_inv_running, _, rfl⟩
theorem witness_StepNeverStops : (prog [3, 0]).Inv ∧ (prog [3, 0]).CommandsWellTyped ∧ (prog [3, 0]).image ≠ [] :=
  ⟨witness_inv_running, fun _ h => absurd h List.not_mem_nil, by decide⟩
theorem witness_PcFitsItsRegister :
    (let s := { prog [3, 0] with cfg := { Config.reference with memMax := some 3, pcBits := some 2 } }
     s.Inv ∧ s.cfg.pcBits = some 2 ∧ ∃ t, step s = .next t ∧ t.fault = none) :=
  ⟨⟨by decide, by decide, by decide, by decide, by decide, by decide, by decide, by decide, by decide, by decide,
    fun h => absurd h (by decide), fun _ _ h => nomatch h⟩, rfl, _, rfl, rfl⟩
theorem witness_RunEndsInThreeWays : (prog [3]).state = .running ∧ (prog [3]).fault = none ∧
    ∃ t, step (prog [3]) = .next t := ⟨rfl, rfl, _, rfl⟩
/-- A block, a Halt, a Run command, a Reboot and a Construct each change the execution state. -/
theorem witness_ExecutionStateWriters : (∃ t, step (prog [3]) = .next t ∧ t.fault = none ∧ t.state ≠ (prog [3]).state) ∧
    (∃ t, step (prog [99]) = .next t ∧ t.fault = none ∧ t.state ≠ (prog [99]).state) ∧
    (∃ t, step (between [99] [.run]) = .next t ∧ t.fault = none ∧ t.state ≠ (between [99] [.run]).state) ∧
    ∃ t, step (poisoned [0] [.reboot]) = .next t ∧ t.fault = none ∧ t.state ≠ (poisoned [0] [.reboot]).state :=
  ⟨⟨_, rfl, rfl, by decide⟩, ⟨_, rfl, rfl, by decide⟩, ⟨_, rfl, rfl, by decide⟩, ⟨_, rfl, rfl, by decide⟩⟩
theorem witness_HostHasNoMoveDuringRun : (prog [3]).state = .running ∧ (prog [3]).fault = none := by decide
theorem witness_ImageWrittenOnlyByConstruct : ∃ t, step { State.reset with cmds := [.construct ['9', '9']] } = .next t ∧
    t.image ≠ [] := ⟨_, rfl, by decide⟩
/-- An instruction, WriteMemory and Reboot each change memory. -/
theorem witness_MemoryWriters : (∃ t, step (prog [1, 0, 0, 0]) = .next t ∧ t.fault = none ∧ t.mem ≠ (prog [1, 0, 0, 0]).mem) ∧
    (∃ t, step (between [99] [.writeMemory 0 1]) = .next t ∧ t.fault = none ∧ t.mem ≠ [99]) ∧
    ∃ t, step { between [99] [.reboot] with mem := [1] } = .next t ∧ t.fault = none ∧ t.mem ≠ [1] :=
  ⟨⟨_, rfl, rfl, by decide⟩, ⟨_, rfl, rfl, by decide⟩, ⟨_, rfl, rfl, by decide⟩⟩
theorem witness_PcWriters : (∃ t, step (prog [104, 1]) = .next t ∧ t.fault = none ∧ t.pc ≠ 0) ∧
    ∃ t, step { between [99] [.reboot] with pc := 1 } = .next t ∧ t.fault = none ∧ t.pc ≠ 1 :=
  ⟨⟨_, rfl, rfl, by decide⟩, ⟨_, rfl, rfl, by decide⟩⟩
theorem witness_FifoWriters : (∃ t, step (prog [104, 1]) = .next t ∧ t.fault = none ∧ t.outq ≠ []) ∧
    (∃ t, step { prog [3, 0] with inq := [5] } = .next t ∧ t.fault = none ∧ t.inq ≠ [5]) ∧
    (∃ t, step (between [99] [.input 5]) = .next t ∧ t.fault = none ∧ t.inq ≠ []) ∧
    ∃ t, step { between [99] [.output] with outq := [5] } = .next t ∧ t.fault = none ∧ t.outq ≠ [5] :=
  ⟨⟨_, rfl, rfl, by decide⟩, ⟨_, rfl, rfl, by decide⟩, ⟨_, rfl, rfl, by decide⟩, ⟨_, rfl, rfl, by decide⟩⟩
theorem witness_RebootRestoresImage : (between [99] [.reboot]).Takes .reboot [] ∧
    (poisoned [0] [.reboot]).Takes .reboot [] := ⟨⟨by decide, by decide, rfl⟩, ⟨by decide, by decide, rfl⟩⟩
theorem witness_RebootEqualsConstruct : (between [99] []).image ≠ [] ∧ (between [99] []).inRun = false ∧
    loadProgram (between [99] []).cfg ['9', '9'] = .ok (between [99] []).image := by decide
theorem witness_ConstructLoadsProgram :
    ({ State.reset with cmds := [.construct ['9', '9']] } : State).inRun = false ∧
    loadProgram Config.reference ['9', '9'] = .ok [99] := by decide
/-- A bad token after good ones, and more good tokens than MEM_MAX by one. -/
theorem witness_ConstructRejectsBadText :
    ({ State.reset with cmds := [.construct "1,2,,x".toList] } : State).inRun = false ∧
    loadProgram Config.reference "1,2,,x".toList = .error (.invalidProgramText 2) ∧
    loadProgram { Config.reference with memMax := some 1 } "1,2".toList = .error (.invalidProgramText 2) ∧
    loadProgram { Config.reference with memMax := some 2 } "1,2".toList = .ok [1, 2] := by decide
theorem witness_PoisonedRefusesCommands : (poisoned [0] [.run]).Takes .run [] ∧
    (poisoned [0] [.run]).fault = some ⟨.unknownOpcode 0, some 0⟩ := ⟨⟨by decide, by decide, rfl⟩, rfl⟩
/-- Two poisoned instances that differ in memory, PC, FIFOs and execution state. -/
theorem witness_PoisonedStateUnobservable : (poisoned [0] [.run, .reboot]).SameToHost
    { poisoned [0] [.run, .reboot] with mem := [5], pc := 1, inq := [1], outq := [2], state := .halted } :=
  ⟨rfl, rfl, rfl, rfl, rfl, fun h => absurd h (by decide)⟩
theorem witness_InputPushes : (between [99] [.input 5]).Takes (.input 5) [] ∧ Config.reference.fits 5 = true ∧
    (between [99] []).cfg.inDepth ≠ some (between [99] []).inq.length ∧
    (let s := { between [99] [.input 5] with inq := [1], cfg := { Config.reference with inDepth := some 1 } }
     s.Takes (.input 5) [] ∧ s.cfg.inDepth = some s.inq.length) :=
  ⟨⟨by decide, by decide, rfl⟩, by decide, by decide, ⟨by decide, by decide, rfl⟩, rfl⟩
theorem witness_OutputPops : (between [99] [.output]).Takes .output [] ∧ (between [99] [.output]).fault = none ∧
    (between [99] [.output]).outq = [] := ⟨⟨by decide, by decide, rfl⟩, rfl, rfl⟩
theorem witness_AccessorsChangeNothing : (between [99] [.peekOutput]).Takes .peekOutput [] ∧
    (between [99] [.currentState]).Takes .currentState [] ∧ (between [99] [.debugDump]).Takes .debugDump [] :=
  ⟨⟨by decide, by decide, rfl⟩, ⟨by decide, by decide, rfl⟩, ⟨by decide, by decide, rfl⟩⟩
theorem witness_ReadMemoryAnswersCell : (between [99] [.readMemory 0]).Takes (.readMemory 0) [] ∧
    Memory.read [99] 0 = some 99 ∧ ¬(0 ≤ (1 : Int) ∧ (1 : Int) < (([99] : List Int).length : Int)) :=
  ⟨⟨by decide, by decide, rfl⟩, by decide, by decide⟩
theorem witness_WriteMemoryPatchesCell : (between [99] [.writeMemory 0 5]).Takes (.writeMemory 0 5) [] ∧
    (between [99] [.writeMemory (-1) 5]).Takes (.writeMemory (-1) 5) [] ∧ Config.reference.fits 5 = true ∧
    ¬(0 ≤ (-1 : Int) ∧ (-1 : Int) < (([99] : List Int).length : Int)) :=
  ⟨⟨by decide, by decide, rfl⟩, ⟨by decide, by decide, rfl⟩, by decide, by decide⟩
theorem witness_RunEntersRunning : (between [99] [.run]).Takes .run [] ∧ (between [99] [.run]).fault = none :=
  ⟨⟨by decide, by decide, rfl⟩, rfl⟩
theorem witness_HaltedRunHaltsAgain :
    (let s := { between [99] [.run] with state := .halted }
     s.Takes .run [] ∧ s.fault = none ∧ s.cfg.haltPcAdvance = 0 ∧ s.fetchDecode = .ok .halt) :=
  ⟨⟨by decide, by decide, rfl⟩, rfl, rfl, by decide⟩
theorem witness_BlockedRunResumes :
    (let s := { between [3, 0] [.run] with state := .blockedOnInput }
     s.Takes .run [] ∧ s.fault = none ∧ s.fetchDecode = .ok .readInput ∧ s.inq = [] ∧
       ({ s with inq := [7] } : State).DestinationIs 0 0) :=
  ⟨⟨by decide, by decide, rfl⟩, rfl, by decide, rfl, rfl, by decide, by decide⟩
theorem witness_ProgramTextRoundTrip : imageWf Config.reference [-9223372036854775808, 99, 0] = true := by decide
/-- It succeeds; and fails by its number of operands, by an undefined label, and by a destination `#e`. -/
theorem witness_AssembledInstructionDecodes :
    assembleOp [(['n'], 23)] .jumpIfZero [.cell (.label ['n']), .imm (.num 20)] = some [1006, 23, 20] ∧
    assembleOp [] .readInput [.cell (.num 0)] = some [3, 0] ∧ assembleOp [] .halt [] = some [99] ∧
    assembleOp [] .halt [.imm (.num 0)] = none ∧ assembleOp [] .writeOutput [.cell (.label ['n'])] = none ∧
    assembleOp [] .readInput [.imm (.num 0)] = none := by decide
theorem witness_InstancesAreIndependent :
    ∃ b, Instances.stepAt [prog [99], prog [104, 1]] 1 = .next b := ⟨_, rfl⟩
/-- A state without a fault, and one with. -/
theorem witness_ErrorAndStateCodes : (prog [9]).faultCode = 0 ∧ (poisoned [0] []).fault = some ⟨.unknownOpcode 0, some 0⟩ ∧
    (ErrorInfo.unknownOpcode 0).code = (poisoned [0] []).faultCode := by decide

end Sys2Proof.Tests
end

namespace Sys2Proof.Machine

/-! ### What a step that leaves no fault can be -/

@[simp] theorem State.endCycle_mem (s : State) : s.endCycle.mem = s.mem := by
  obtain ⟨rs, h⟩ := s.endCycle_eq
  rw [h]

@[simp] theorem State.endCycle_state (s : State) : s.endCycle.state = s.state := by
  obtain ⟨rs, h⟩ := s.endCycle_eq
  rw [h]

@[simp] theorem State.endCycle_faultRecord (s : State) : s.endCycle.fault = s.fault := by
  obtain ⟨rs, h⟩ := s.endCycle_eq
  rw [h]

/-- Inside a Run, a step after which the block is not poisoned executed a decoded instruction. -/
theorem step_inRun_unpoisoned {s t : State} (hr : s.inRun = true) (h : step s = .next t)
    (hf : t.fault = none) :
    ∃ i u, s.fetchDecode = .ok i ∧ exec i s = .next u ∧ t = u.endCycle := by
  rw [step_inRun hr] at h
  rcases State.cycle_next h with ⟨e, -, rfl⟩ | hexec
  · simp at hf
  · exact hexec

/-- Between Runs, a step after which the block is not poisoned waited, or took a command that the block
accepts; and a poisoned one accepts only Reboot and Construct (60_exceptions.md R312). -/
theorem step_between_unpoisoned {s t : State} (hr : s.inRun = false) (h : step s = .next t)
    (hf : t.fault = none) :
    t = s ∨ ∃ c rest, s.cmds = c :: rest ∧ t = ({ s with cmds := rest } : State).accept c ∧
      (s.fault = none ∨ c = .reboot ∨ ∃ txt, c = .construct txt) := by
  rw [step_between hr] at h
  rcases State.takeCommand_next h with ⟨-, rfl⟩ | ⟨c, rest, hc, hp⟩
  · exact .inl rfl
  · refine .inr ⟨c, rest, hc, ?_⟩
    rcases State.perform_next hp with ⟨rfl, hcon | ⟨-, hreb⟩ | ⟨-, hnone, -⟩⟩ | ⟨f, hsome, -, -, -, rfl⟩
    · exact ⟨rfl, .inr (.inr hcon)⟩
    · exact ⟨rfl, .inr (.inl hreb)⟩
    · exact ⟨rfl, .inl hnone⟩
    · exact absurd (hsome.symm.trans hf) nofun

/-! ### What a command writes to memory and to the execution-state register -/

@[simp] theorem State.raiseCommand_mem (s : State) (e : ErrorInfo) : (s.raiseCommand e).mem = s.mem := rfl
@[simp] theorem State.raiseCommand_state (s : State) (e : ErrorInfo) :
    (s.raiseCommand e).state = s.state := rfl

@[simp] theorem State.input_mem (s : State) (v : Int) : (s.input v).mem = s.mem := by
  unfold State.input; split <;> rfl

@[simp] theorem State.input_state (s : State) (v : Int) : (s.input v).state = s.state := by
  unfold State.input; split <;> rfl

@[simp] theorem State.output_mem (s : State) : s.output.mem = s.mem := by
  unfold State.output; split <;> rfl

@[simp] theorem State.output_state (s : State) : s.output.state = s.state := by
  unfold State.output; split <;> rfl

@[simp] theorem State.readMemory_mem (s : State) (a : Int) : (s.readMemory a).mem = s.mem := by
  unfold State.readMemory; split <;> rfl

@[simp] theorem State.readMemory_state (s : State) (a : Int) : (s.readMemory a).state = s.state := by
  unfold State.readMemory; split <;> rfl

/-- WriteMemory writes its cell, or raises and writes nothing (40_host_interface.md R141). -/
theorem State.writeMemory_mem (s : State) (a v : Int) :
    (s.writeMemory a v).mem = s.mem ∨ (s.writeMemory a v).mem = Memory.write s.mem a v := by
  unfold State.writeMemory
  split
  next t h =>
    obtain ⟨-, rfl⟩ := State.memWrite_ok.1 h
    exact .inr rfl
  next => exact .inl rfl

@[simp] theorem State.writeMemory_state (s : State) (a v : Int) :
    (s.writeMemory a v).state = s.state := by
  unfold State.writeMemory
  split
  next t h =>
    obtain ⟨-, rfl⟩ := State.memWrite_ok.1 h
    rfl
  next => rfl

/-- Construct loads an image, or only answers (40_host_interface.md R133). -/
theorem State.construct_cases (s : State) (txt : Text) :
    (∃ img, s.construct txt = (s.load img).respond .constructed) ∨
    ∃ r, s.construct txt = s.respond r := by
  unfold State.construct
  split
  next img _ => exact .inl ⟨img, rfl⟩
  next => exact .inr ⟨_, rfl⟩

/-- All that an accepted command can do to memory. -/
theorem State.accept_mem (s : State) (c : Command) :
    (s.accept c).mem = s.mem ∨
    (∃ a v, c = .writeMemory a v ∧ (s.accept c).mem = Memory.write s.mem a v) ∨
    ((s.accept c).mem = (s.accept c).image ∧ (c = .reboot ∨ ∃ txt, c = .construct txt)) := by
  cases c with
  | construct txt =>
    rcases s.construct_cases txt with ⟨img, h⟩ | ⟨r, h⟩
    · exact .inr (.inr ⟨by simp [State.accept, h], .inr ⟨txt, rfl⟩⟩)
    · exact .inl (by simp [State.accept, h])
  | reboot => exact .inr (.inr ⟨rfl, .inl rfl⟩)
  | writeMemory a v => exact (s.writeMemory_mem a v).imp_right fun h => .inl ⟨a, v, rfl, h⟩
  | input v => exact .inl (s.input_mem v)
  | output => exact .inl s.output_mem
  | readMemory a => exact .inl (s.readMemory_mem a)
  | peekOutput | run | currentState | debugDump => exact .inl rfl

/-- All that an accepted command can do to the execution-state register. -/
theorem State.accept_state (s : State) (c : Command) :
    (s.accept c).state = s.state ∨
    (c = .run ∧ (s.accept c).state = .running) ∨
    ((s.accept c).state = .initialized ∧ (c = .reboot ∨ ∃ txt, c = .construct txt)) := by
  cases c with
  | construct txt =>
    rcases s.construct_cases txt with ⟨img, h⟩ | ⟨r, h⟩
    · exact .inr (.inr ⟨by simp [State.accept, h], .inr ⟨txt, rfl⟩⟩)
    · exact .inl (by simp [State.accept, h])
  | reboot => exact .inr (.inr ⟨rfl, .inl rfl⟩)
  | run => exact .inr (.inl ⟨rfl, rfl⟩)
  | input v => exact .inl (s.input_state v)
  | output => exact .inl s.output_state
  | readMemory a => exact .inl (s.readMemory_state a)
  | writeMemory a v => exact .inl (s.writeMemory_state a v)
  | peekOutput | currentState | debugDump => exact .inl rfl

/-! ### What an instruction writes to the execution-state register -/

theorem State.writeResult_state {s t : State} {h : Handler} {ma mb : Mode}
    {f : Int → Int → Except ErrorInfo Int} (ht : s.writeResult h ma mb f = .next t) :
    t.state = s.state := by
  rcases State.writeResult_next ht with ⟨a, b, d, v, -, -, -, -, rfl⟩ | ⟨e, rfl, -⟩ <;> rfl

theorem State.jump_state {s t : State} {h : Handler} {ma mb : Mode} {taken : Int → Bool}
    (ht : s.jump h ma mb taken = .next t) : t.state = s.state := by
  rcases State.jump_next ht with ⟨a, b, -, -, -, -, rfl⟩ | ⟨a, b, -, -, -, rfl⟩ | ⟨e, rfl, -⟩ <;> rfl

/-- All that an instruction can do to the execution-state register: a ReadInput may block, and Halt halts. -/
theorem exec_state {i : Instr} {s t : State} (ht : exec i s = .next t) :
    t.state = s.state ∨ (i = .readInput ∧ s.inq = [] ∧ t.state = .blockedOnInput) ∨
      (i = .halt ∧ t.state = .halted) := by
  cases i with
  | add ma mb => exact .inl (State.writeResult_state ht)
  | multiply ma mb => exact .inl (State.writeResult_state ht)
  | lessThan ma mb => exact .inl (State.writeResult_state ht)
  | equals ma mb => exact .inl (State.writeResult_state ht)
  | jumpIfNonZero ma mb => exact .inl (State.jump_state ht)
  | jumpIfZero ma mb => exact .inl (State.jump_state ht)
  | writeOutput ma =>
    rcases execWriteOutput_next ht with ⟨a, -, -, rfl⟩ | ⟨e, rfl, -⟩ <;> exact .inl rfl
  | readInput =>
    cases hq : s.inq with
    | nil =>
      cases (execReadInput_empty hq).symm.trans ht
      exact .inr (.inl ⟨rfl, rfl, rfl⟩)
    | cons v rest =>
      rcases execReadInput_next hq ht with ⟨d, -, rfl⟩ | ⟨e, -, rfl⟩ <;> exact .inl rfl
  | halt =>
    cases (execHalt_eq s).symm.trans ht
    exact .inr (.inr ⟨rfl, rfl⟩)

/-! ### The writers of the two registers (10_state.md R33, R38) -/

/-- Settles O32: inside a Run by `exec_state`, between Runs by `State.accept_state`. -/
theorem executionStateWriters : Obligations.ExecutionStateWriters := by
  intro s t h hf hne
  cases hr : s.inRun with
  | true =>
    obtain ⟨i, u, hi, hu, rfl⟩ := step_inRun_unpoisoned hr h hf
    rw [State.endCycle_state] at hne ⊢
    rcases exec_state hu with hsame | ⟨rfl, hq, hst⟩ | ⟨rfl, hst⟩
    · exact absurd hsame hne
    · exact .inl ⟨rfl, hst, hq, hi⟩
    · exact .inr (.inl ⟨rfl, hst, hi⟩)
  | false =>
    rcases step_between_unpoisoned hr h hf with rfl | ⟨c, rest, hc, rfl, hacc⟩
    · exact absurd rfl hne
    · have hhead : s.cmds.head? = some c := by rw [hc]; rfl
      rcases State.accept_state { s with cmds := rest } c with hsame | ⟨rfl, hst⟩ | ⟨hst, hcmd⟩
      · exact absurd hsame hne
      · exact .inr (.inr (.inl ⟨rfl, hst, by simpa using hacc, hhead⟩))
      · exact .inr (.inr (.inr ⟨rfl, hst, by simpa [hhead] using hcmd⟩))

/-- Settles O35: inside a Run by `exec_mem`, between Runs by `State.accept_mem`. -/
theorem memoryWriters : Obligations.MemoryWriters := by
  intro s t h hf hne
  cases hr : s.inRun with
  | true =>
    obtain ⟨i, u, hi, hu, rfl⟩ := step_inRun_unpoisoned hr h hf
    rw [State.endCycle_mem] at hne ⊢
    rcases exec_mem hu with hsame | ⟨d, v, hstores, hmem⟩
    · exact absurd hsame hne
    · exact .inl ⟨rfl, i, d, v, hi, hstores, hmem⟩
  | false =>
    rcases step_between_unpoisoned hr h hf with rfl | ⟨c, rest, hc, rfl, -⟩
    · exact absurd rfl hne
    · have hhead : s.cmds.head? = some c := by rw [hc]; rfl
      rcases State.accept_mem { s with cmds := rest } c with hsame | ⟨a, v, rfl, hmem⟩ | ⟨hmem, hcmd⟩
      · exact absurd hsame hne
      · exact .inr (.inl ⟨rfl, a, v, hhead, hmem⟩)
      · exact .inr (.inr ⟨rfl, hmem, by simpa [hhead] using hcmd⟩)

end Sys2Proof.Machine

namespace Sys2Proof

/-! ### What the decoder reads of a word (30_encoding.md R92, R96, R98) -/

/-- A statement about each element of a list with its index, one element at a time. -/
theorem forall_getElem?_cons {α : Type} {P : Nat → α → Prop} {a : α} {l : List α} :
    (∀ k m, (a :: l)[k]? = some m → P k m) ↔ P 0 a ∧ ∀ k m, l[k]? = some m → P (k + 1) m := by
  simp [← Nat.and_forall_add_one (p := fun k => ∀ m, (a :: l)[k]? = some m → P k m)]

/-- Two source modes that are checked lowest first (41_dispatch_cycle.md R176), as a statement about the list
of the modes. -/
theorem sourceModes_pair {w : Int} {ma mb : Mode} {f : Mode → Mode → Instr}
    (hf : ∀ a b, f a b = f ma mb ↔ a = ma ∧ b = mb) :
    (do let a ← sourceMode w 0; let b ← sourceMode w 1; .ok (f a b)) = Except.ok (f ma mb) ↔
      ∀ k m, [ma, mb][k]? = some m → sourceMode w k = .ok m := by
  simp [Machine.except_bind_ok, forall_getElem?_cons, hf]

/-- The selection of an instruction's handler gives that instruction exactly when the word has its source modes. -/
theorem selectInstr_ok {w : Int} {i : Instr} :
    selectInstr w i.handler = .ok i ↔ ∀ k m, i.modes[k]? = some m → sourceMode w k = .ok m := by
  cases i with
  | add ma mb | multiply ma mb | jumpIfNonZero ma mb | jumpIfZero ma mb | lessThan ma mb | equals ma mb =>
    exact sourceModes_pair fun a b => by simp
  | writeOutput ma =>
    simp [Instr.handler, Instr.modes, selectInstr, Machine.except_bind_ok, forall_getElem?_cons]
  | readInput | halt => simp [Instr.handler, Instr.modes, selectInstr]

/-- The decoder's answer, by the digits of the word alone. -/
theorem decode_ok_iff_digits {w : Int} {i : Instr} :
    decode w = .ok i ↔ 0 ≤ w ∧ w.toNat % 100 = i.handler.row.opcode ∧
      ∀ k m, i.modes[k]? = some m → digit w.toNat (k + 2) = m.digit := by
  simp only [← sourceMode_ok, ← selectInstr_ok, decode_ok]
  constructor
  · rintro ⟨hw, h, hop, hsel⟩
    obtain rfl := selectInstr_handler hsel
    exact ⟨hw, hop, hsel⟩
  · rintro ⟨hw, hop, hsel⟩
    exact ⟨hw, i.handler, hop, hsel⟩

/-- Settles O3: `decode_ok_iff_digits`, with the digits of the flags by `digit_flags`. -/
theorem decodeReadsOpcodeAndFlags : Obligations.DecodeReadsOpcodeAndFlags := by
  intro w i
  exact ⟨by simpa only [digit_flags] using decode_ok_iff_digits, digit_flags w.toNat⟩

/-- A row of the dispatch ROM is the one that the lookup of its opcode finds. -/
theorem romLookup_of_mem {r : RomRow} (hr : r ∈ dispatchRom) : romLookup r.opcode = some r := by
  obtain ⟨h, -, rfl⟩ := List.mem_map.1 hr
  exact romLookup_opcode h

/-- The ROM's row of an instruction lists its source parameters (10_state.md R44). -/
theorem Instr.row_sources (i : Instr) : i.handler.row.sources = List.range i.modes.length := by
  cases i <;> rfl

/-- Two words with an opcode of the ROM and the same digits at its source parameters: what the one decodes to,
the other does. -/
theorem decode_ok_of_same_digits {w v : Int} {r : RomRow} {i : Instr} (hv : 0 ≤ v) (hr : r ∈ dispatchRom)
    (hwop : w.toNat % 100 = r.opcode) (hvop : v.toNat % 100 = r.opcode)
    (hdig : ∀ k ∈ r.sources, digit w.toNat (k + 2) = digit v.toNat (k + 2)) (h : decode w = .ok i) :
    decode v = .ok i := by
  obtain ⟨-, hop, hmodes⟩ := decode_ok_iff_digits.1 h
  have hrow : r = i.handler.row := by
    have hlook := romLookup_of_mem hr
    rw [← hwop, hop, romLookup_opcode] at hlook
    exact (Option.some.inj hlook).symm
  refine decode_ok_iff_digits.2 ⟨hv, hvop.trans (hwop.symm.trans hop), fun k m hk => ?_⟩
  have hsource : k ∈ r.sources := by
    rw [hrow, i.row_sources, List.mem_range]
    exact (List.getElem?_eq_some_iff.1 hk).1
  rw [← hdig k hsource]
  exact hmodes k m hk

/-- Settles O6: `decode_ok_of_same_digits` in both directions. -/
theorem unexaminedDigitsIgnored : Obligations.UnexaminedDigitsIgnored := by
  intro w v r hw hv hr hwop hvop hdig i
  exact ⟨decode_ok_of_same_digits hv hr hwop hvop hdig,
    decode_ok_of_same_digits hw hr hvop hwop fun k hk => (hdig k hk).symm⟩

end Sys2Proof

namespace Sys2Proof.Machine

/-! ### Taking one command (40_host_interface.md R131, R132) -/

/-- A step between Runs is the block's answer to the first pending command. -/
theorem step_command {s : State} {c : Command} {rest : List Command} (hr : s.inRun = false)
    (hc : s.cmds = c :: rest) : step s = ({ s with cmds := rest } : State).perform c := by
  simp [step_between hr, State.takeCommand, hc]

/-- Reboot is accepted, poisoned or not. -/
theorem State.perform_reboot {s : State} (hi : s.image ≠ []) :
    s.perform .reboot = .next (s.accept .reboot) := by
  cases hf : s.fault <;> simp [State.perform, Command.isConstruct, Command.badWord, hi, hf]

/-- A block that is not poisoned accepts every request of the port. -/
theorem State.perform_unpoisoned {s : State} {c : Command} (hi : s.image ≠ []) (hf : s.fault = none)
    (hw : c.badWord s.cfg = none) : s.perform c = .next (s.accept c) := by
  simp [State.perform, hi, hf, hw]

theorem State.Takes.step_reboot {s : State} {rest : List Command} (h : s.Takes .reboot rest) :
    step s = .next (({ s with cmds := rest } : State).accept .reboot) := by
  obtain ⟨hr, hi, hc⟩ := h
  exact (step_command hr hc).trans (State.perform_reboot hi)

/-- A request of the port that is taken unpoisoned: the next state is what accepting it gives. -/
theorem State.Takes.step_next {s t : State} {c : Command} {rest : List Command} (h : s.Takes c rest)
    (hf : s.fault = none) (hw : c.badWord s.cfg = none)
    (ht : ({ s with cmds := rest } : State).accept c = t) : step s = .next t := by
  obtain ⟨hr, hi, hc⟩ := h
  rw [← ht, step_command hr hc]
  exact State.perform_unpoisoned hi hf hw

/-- A request of the port that is taken unpoisoned and raises (60_exceptions.md R308). -/
theorem State.Takes.step_raises {s : State} {c : Command} {rest : List Command} {e : ErrorInfo}
    (h : s.Takes c rest) (hf : s.fault = none) (hw : c.badWord s.cfg = none)
    (he : ({ s with cmds := rest } : State).accept c = ({ s with cmds := rest } : State).raiseCommand e) :
    CommandRaises s e :=
  ⟨_, h.step_next hf hw he, rfl, rfl⟩

/-! ### What each accepted command does -/

theorem atCap_iff {cap : Option Nat} {n : Nat} : atCap cap n = true ↔ cap = some n := by
  cases cap <;> simp [atCap, eq_comm]

theorem State.construct_ok {s : State} {txt : Text} {img : List Int} (h : loadProgram s.cfg txt = .ok img) :
    s.construct txt = (s.load img).respond .constructed := by
  simp [State.construct, h]

/-- Construct of a valid text loads it, with or without an image held and poisoned or not (R133). -/
theorem step_construct_ok {s : State} {txt : Text} {rest : List Command} {img : List Int}
    (hr : s.inRun = false) (hc : s.cmds = .construct txt :: rest) (h : loadProgram s.cfg txt = .ok img) :
    step s = .next ((({ s with cmds := rest } : State).load img).respond .constructed) := by
  have hload : ({ s with cmds := rest } : State).construct txt = _ := State.construct_ok h
  rw [step_command hr hc, ← hload]
  rfl

theorem State.input_full {s : State} (v : Int) (h : s.cfg.inDepth = some s.inq.length) :
    s.input v = s.raiseCommand (.fifoOverflow v) :=
  if_pos (atCap_iff.2 h)

theorem State.input_not_full {s : State} (v : Int) (h : s.cfg.inDepth ≠ some s.inq.length) :
    s.input v = (s.inPush v).respond .done :=
  if_neg (mt atCap_iff.1 h)

theorem State.output_empty {s : State} (h : s.outq = []) :
    s.output = s.raiseCommand .emptyOutputRead := by
  simp [State.output, h]

theorem State.output_cons {s : State} {v : Int} {q : List Int} (h : s.outq = v :: q) :
    s.output = ({ s with outq := q } : State).respond (.word v) := by
  simp [State.output, h]

theorem State.readMemory_cell {s : State} {a v : Int} (h : Memory.read s.mem a = some v) :
    s.readMemory a = s.respond (.word v) := by
  simp [State.readMemory, State.memRead_ok.2 h]

theorem State.readMemory_outside {s : State} {a : Int} (h : ¬(0 ≤ a ∧ a < (s.mem.length : Int))) :
    s.readMemory a = s.raiseCommand (.memoryOutOfBounds a) := by
  simp [State.readMemory, State.memRead_error.2 ⟨Memory.read_eq_none.2 h, rfl⟩]

theorem State.writeMemory_inside {s : State} {a : Int} (v : Int) (h : 0 ≤ a ∧ a < (s.mem.length : Int)) :
    s.writeMemory a v = ({ s with mem := Memory.write s.mem a v } : State).respond .done := by
  simp [State.writeMemory, State.memWrite_ok.2 ⟨h, rfl⟩]

theorem State.writeMemory_outside {s : State} {a : Int} (v : Int)
    (h : ¬(0 ≤ a ∧ a < (s.mem.length : Int))) :
    s.writeMemory a v = s.raiseCommand (.memoryOutOfBounds a) := by
  simp [State.writeMemory, State.memWrite_error.2 ⟨h, rfl⟩]

/-- What memory reads after one cell of it was written. -/
theorem Memory.read_write {m : Memory} {a : Int} (v : Int) (h : 0 ≤ a ∧ a < (m.length : Int)) (b : Int) :
    Memory.read (Memory.write m a v) b = if b = a then some v else Memory.read m b := by
  split
  case isTrue hb => rw [hb, Memory.read_write_same v h]
  case isFalse hb => exact Memory.read_write_other v hb

/-! ### The host commands -/

/-- Settles O38: Reboot is accepted whether the block is poisoned or not, and loads the image that it holds. -/
theorem rebootRestoresImage : Obligations.RebootRestoresImage := by
  intro s rest h
  exact h.step_reboot

/-- Settles O39: both commands load the same image into the same configuration. -/
theorem rebootEqualsConstruct : Obligations.RebootEqualsConstruct := by
  intro s txt rest hi hr hload
  have hreboot : ({ s with cmds := .reboot :: rest } : State).Takes .reboot rest := ⟨hr, hi, rfl⟩
  exact ⟨_, _, hreboot.step_reboot, step_construct_ok rfl rfl hload, rfl⟩

/-- Settles O44: `State.input_not_full` and `State.input_full`. -/
theorem inputPushes : Obligations.InputPushes := by
  intro s v rest h hf hfits
  have hword : (Command.input v).badWord s.cfg = none := if_pos hfits
  exact ⟨fun hroom => h.step_next hf hword (State.input_not_full v hroom),
    fun hfull => h.step_raises hf hword (State.input_full v hfull)⟩

/-- Settles O45: `State.output_empty` and `State.output_cons`. -/
theorem outputPops : Obligations.OutputPops := by
  intro s rest h hf
  exact ⟨fun hempty => h.step_raises hf rfl (State.output_empty hempty),
    fun v q hq => h.step_next hf rfl (State.output_cons hq)⟩

/-- Settles O47: `State.readMemory_cell` and `State.readMemory_outside`. -/
theorem readMemoryAnswersCell : Obligations.ReadMemoryAnswersCell := by
  intro s a rest h hf
  exact ⟨fun v hv => h.step_next hf rfl (State.readMemory_cell hv),
    fun hout => h.step_raises hf rfl (State.readMemory_outside hout)⟩

/-- Settles O48: `State.writeMemory_inside`, `Memory.read_write` and `State.writeMemory_outside`. -/
theorem writeMemoryPatchesCell : Obligations.WriteMemoryPatchesCell := by
  intro s a v rest h hf hfits
  have hword : (Command.writeMemory a v).badWord s.cfg = none := if_pos hfits
  refine ⟨fun h0 hlt => ⟨?_, Memory.read_write v ⟨h0, hlt⟩⟩, fun hout => ?_⟩
  · exact h.step_next hf hword (State.writeMemory_inside v ⟨h0, hlt⟩)
  · exact h.step_raises hf hword (State.writeMemory_outside v hout)

end Sys2Proof.Machine

namespace Sys2Proof.Machine

/-! ### The pieces of a text between separators (40_host_interface.md R134) -/

theorem splitAtEvery_cons_self (c : Char) (t : Text) :
    splitAtEvery c (c :: t) = [] :: splitAtEvery c t := by
  simp [splitAtEvery]

theorem splitAtEvery_ne_nil (c : Char) (t : Text) : splitAtEvery c t ≠ [] := by
  fun_cases splitAtEvery c t <;> simp

/-- A character that is no separator stands at the head of the first piece. -/
theorem splitAtEvery_cons_other {c d : Char} (h : d ≠ c) (t : Text) :
    ∃ p ps, splitAtEvery c t = p :: ps ∧ splitAtEvery c (d :: t) = (d :: p) :: ps := by
  obtain ⟨p, ps, hp⟩ := List.exists_cons_of_ne_nil (splitAtEvery_ne_nil c t)
  exact ⟨p, ps, hp, by simp [splitAtEvery, h, hp]⟩

theorem splitAtEvery_length (c : Char) (t : Text) : (splitAtEvery c t).length = t.count c + 1 := by
  induction t with
  | nil => rfl
  | cons d t ih =>
    by_cases hd : d = c
    · subst hd
      simp [splitAtEvery_cons_self, ih]
    · obtain ⟨p, ps, hp, hcons⟩ := splitAtEvery_cons_other hd t
      rw [hp] at ih
      simp [hcons, List.count_cons_of_ne hd, ← ih]

theorem notMem_of_mem_splitAtEvery {c : Char} {t tok : Text} (h : tok ∈ splitAtEvery c t) : c ∉ tok := by
  induction t generalizing tok with
  | nil => simp_all [splitAtEvery]
  | cons d t ih =>
    by_cases hd : d = c
    · subst hd
      rw [splitAtEvery_cons_self, List.mem_cons] at h
      rcases h with rfl | h
      · exact List.not_mem_nil
      · exact ih h
    · obtain ⟨p, ps, hp, hcons⟩ := splitAtEvery_cons_other hd t
      rw [hp] at ih
      rw [hcons, List.mem_cons] at h
      rcases h with rfl | h
      · simpa [Ne.symm hd] using ih List.mem_cons_self
      · exact ih (List.mem_cons_of_mem p h)

theorem joinWith_cons {sep : Text} {ts : List Text} (t : Text) (h : ts ≠ []) :
    joinWith sep (t :: ts) = t ++ sep ++ joinWith sep ts := by
  cases ts with
  | nil => exact absurd rfl h
  | cons u us => rfl

theorem joinWith_cons_head (sep : Text) (d : Char) (p : Text) (ps : List Text) :
    joinWith sep ((d :: p) :: ps) = d :: joinWith sep (p :: ps) := by
  cases ps <;> rfl

/-- The pieces with the separator between each two are the text. -/
theorem joinWith_splitAtEvery (c : Char) (t : Text) : joinWith [c] (splitAtEvery c t) = t := by
  induction t with
  | nil => rfl
  | cons d t ih =>
    by_cases hd : d = c
    · subst hd
      simp [splitAtEvery_cons_self, joinWith_cons, splitAtEvery_ne_nil, ih]
    · obtain ⟨p, ps, hp, hcons⟩ := splitAtEvery_cons_other hd t
      rw [hcons, joinWith_cons_head, ← hp, ih]

/-! ### The whitespace around a token -/

/-- Dropping from a text whose first characters are all dropped and whose next is kept. -/
theorem dropWhile_append_kept {α : Type} {p : α → Bool} {l m r : List α} (hl : l.all p = true)
    (hm : m ≠ []) (hkept : ∀ x ∈ m, p x = false) : (l ++ m ++ r).dropWhile p = m ++ r := by
  obtain ⟨x, xs, rfl⟩ := List.exists_cons_of_ne_nil hm
  rw [List.append_assoc, List.dropWhile_append_of_pos (List.all_eq_true.1 hl)]
  simp [hkept x]

/-- Whitespace around a text that holds none is trimmed. -/
theorem trimWs_append {before t after : Text} (hb : before.all isWs = true) (ha : after.all isWs = true)
    (hne : t ≠ []) (ht : ∀ x ∈ t, isWs x = false) : trimWs (before ++ t ++ after) = t := by
  have hrev := dropWhile_append_kept (p := isWs) (l := after.reverse) (m := t.reverse) (r := [])
    (by simpa using ha) (by simpa using hne) (by simpa using ht)
  rw [trimWs, dropWhile_append_kept hb hne ht]
  simpa using congrArg List.reverse hrev

theorem trimWs_eq_rdropWhile (t : Text) : trimWs t = (t.dropWhile isWs).rdropWhile isWs := rfl

/-- What is trimmed is whitespace. -/
theorem trimWs_decompose (t : Text) : ∃ before after : Text,
    t = before ++ trimWs t ++ after ∧ before.all isWs = true ∧ after.all isWs = true := by
  refine ⟨t.takeWhile isWs, (t.dropWhile isWs).rtakeWhile isWs, ?_, ?_, ?_⟩
  · rw [List.append_assoc, trimWs_eq_rdropWhile, List.rdropWhile_append_rtakeWhile, List.takeWhile_append_dropWhile]
  · exact List.all_takeWhile
  · exact List.all_eq_true.2 fun x hx => List.mem_rtakeWhile_imp hx

/-! ### The value of a token -/

theorem digitsValue_eq_some {t : Text} {n : Nat} :
    digitsValue t = some n ↔ t ≠ [] ∧ t.all isDigitChar = true ∧
      t.foldl (fun n c => 10 * n + (c.toNat - 48)) 0 = n := by
  simp [digitsValue, and_assoc]

theorem isDigitChar_minus : isDigitChar '-' = false := by decide

theorem isWs_minus : isWs '-' = false := by decide

/-- A digit is no whitespace: the digits are the characters 48 to 57. -/
theorem isWs_of_isDigitChar {c : Char} (h : isDigitChar c = true) : isWs c = false := by
  simp only [isDigitChar, Bool.and_eq_true, decide_eq_true_eq] at h
  simp only [isWs, Bool.or_eq_false_iff, beq_eq_false_iff_ne]
  refine ⟨⟨⟨?_, ?_⟩, ?_⟩, ?_⟩ <;> rintro rfl <;> revert h <;> decide

/-- `numeralValue` accepts `sign? digit+`, and no other text, with the numeral's value. -/
theorem numeralValue_eq_some {t : Text} {v : Int} :
    numeralValue t = some v ↔ ∃ (digits : Text) (neg : Bool),
      t = (if neg then ['-'] else []) ++ digits ∧ digits ≠ [] ∧ digits.all isDigitChar = true ∧
      v = (if neg then -1 else 1) * ((digits.foldl (fun n d => 10 * n + (d.toNat - 48)) 0 : Nat) : Int) := by
  constructor
  · intro h
    unfold numeralValue at h
    split at h
    next digits =>
      obtain ⟨n, hn, rfl⟩ := Option.map_eq_some_iff.1 h
      obtain ⟨hne, hdig, rfl⟩ := digitsValue_eq_some.1 hn
      exact ⟨digits, true, rfl, hne, hdig, by simp⟩
    next =>
      obtain ⟨n, hn, rfl⟩ := Option.map_eq_some_iff.1 h
      obtain ⟨hne, hdig, rfl⟩ := digitsValue_eq_some.1 hn
      exact ⟨t, false, rfl, hne, hdig, by simp⟩
  · rintro ⟨digits, neg, rfl, hne, hdig, rfl⟩
    have hval : digitsValue digits = some _ := digitsValue_eq_some.2 ⟨hne, hdig, rfl⟩
    cases neg with
    | true => simp [numeralValue, hval]
    | false =>
      obtain ⟨d, ds, rfl⟩ := List.exists_cons_of_ne_nil hne
      have hd : d ≠ '-' := by rintro rfl; simp [isDigitChar_minus] at hdig
      simp [numeralValue, hval, hd]

/-- No character of a numeral is whitespace. -/
theorem isWs_of_mem_numeral {digits : Text} {neg : Bool} (h : digits.all isDigitChar = true) :
    ∀ x ∈ (if neg then ['-'] else []) ++ digits, isWs x = false := by
  intro x hx
  rcases List.mem_append.1 hx with hx | hx
  · have hminus : x = '-' := by cases neg <;> simp_all
    rw [hminus, isWs_minus]
  · exact isWs_of_isDigitChar (List.all_eq_true.1 h x hx)

/-- A token has a value in the grammar exactly when its numeral has: the token trimmed under TEXT_WS, and the token
as it stands otherwise. -/
theorem tokenHasValue_iff {c : Config} {t : Text} {v : Int} :
    TokenHasValue c t v ↔ numeralValue (if c.textWs then trimWs t else t) = some v := by
  constructor
  · rintro ⟨before, after, digits, neg, rfl, hb, ha, hws, hne, hdig, hv⟩
    rw [numeralValue_eq_some]
    refine ⟨digits, neg, ?_, hne, hdig, hv⟩
    rw [List.append_assoc before]
    split
    case isTrue =>
      exact trimWs_append hb ha (List.append_ne_nil_of_right_ne_nil _ hne) (isWs_of_mem_numeral hdig)
    case isFalse hoff =>
      obtain ⟨rfl, rfl⟩ := hws (Bool.eq_false_iff.2 hoff)
      simp
  · rw [numeralValue_eq_some]
    rintro ⟨digits, neg, ht, hne, hdig, hv⟩
    cases hws : c.textWs with
    | true =>
      obtain ⟨before, after, hdec, hb, ha⟩ := trimWs_decompose t
      rw [hws, if_pos rfl] at ht
      exact ⟨before, after, digits, neg, by rw [hdec, ht]; simp, hb, ha, by simp [hws], hne, hdig, hv⟩
    | false =>
      rw [hws, if_neg Bool.false_ne_true] at ht
      exact ⟨[], [], digits, neg, by simp [ht], rfl, rfl, by simp, hne, hdig, hv⟩

theorem tokenValue_eq_some {c : Config} {t : Text} {v : Int} :
    tokenValue c t = some v ↔ TokenHasValue c t v ∧ c.fits v = true := by
  rw [tokenHasValue_iff, tokenValue]
  cases numeralValue (if c.textWs then trimWs t else t) with
  | none => simp
  | some u =>
    simp only [Option.ite_none_right_eq_some, Option.some.injEq]
    exact ⟨fun ⟨h, huv⟩ => ⟨huv, huv ▸ h⟩, fun ⟨huv, h⟩ => ⟨huv ▸ h, huv⟩⟩

/-! ### The image of a text -/

/-- All that the parser of the tokens can answer with success, whatever index it counts from. -/
theorem tokenValues_ok {c : Config} {k : Nat} {toks : List Text} {vs : List Int} :
    tokenValues c k toks = .ok vs ↔ List.Forall₂ (fun tok v => tokenValue c tok = some v) toks vs := by
  induction toks generalizing k vs with
  | nil => simp [tokenValues, eq_comm]
  | cons tok toks ih =>
    rw [List.forall₂_cons_left_iff]
    simp only [tokenValues, ← ih (k := k + 1)]
    cases tokenValue c tok with
    | none => simp
    | some v => cases tokenValues c (k + 1) toks <;> simp [eq_comm]

theorem parseProgram_ok {c : Config} {txt : Text} {img : List Int} :
    parseProgram c txt = .ok img ↔ tokenValues c 0 (splitAtEvery ',' txt) = .ok img := by
  unfold parseProgram
  cases tokenValues c 0 (splitAtEvery ',' txt) <;> simp

/-- Settles O52: the pieces by induction on the text, the image by `tokenValues_ok` and `tokenValue_eq_some`. -/
theorem programTextGrammar : Obligations.ProgramTextGrammar := by
  intro c txt img
  refine ⟨splitAtEvery_length ',' txt, joinWith_splitAtEvery ',' txt,
    fun tok => notMem_of_mem_splitAtEvery, ?_⟩
  simp only [parseProgram_ok, tokenValues_ok, tokenValue_eq_some]

end Sys2Proof.Machine

namespace Sys2Proof.Machine

/-! ### What an instruction writes to the fault record -/

theorem State.writeResult_fault {s t : State} {h : Handler} {ma mb : Mode}
    {f : Int → Int → Except ErrorInfo Int} (ht : s.writeResult h ma mb f = .next t) :
    t.fault = s.fault ∨ ∃ e, t = s.raise (some s.pc) e := by
  rcases State.writeResult_next ht with ⟨a, b, d, v, -, -, -, -, rfl⟩ | ⟨e, rfl, -⟩
  · exact .inl rfl
  · exact .inr ⟨e, rfl⟩

theorem State.jump_fault {s t : State} {h : Handler} {ma mb : Mode} {taken : Int → Bool}
    (ht : s.jump h ma mb taken = .next t) :
    t.fault = s.fault ∨ ∃ e, t = s.raise (some s.pc) e := by
  rcases State.jump_next ht with ⟨a, b, -, -, -, -, rfl⟩ | ⟨a, b, -, -, -, rfl⟩ | ⟨e, rfl, -⟩
  · exact .inl rfl
  · exact .inl rfl
  · exact .inr ⟨e, rfl⟩

/-- All that an instruction can do to the fault record: an error is recorded with the instruction's own PC
(60_exceptions.md R308). -/
theorem exec_fault {i : Instr} {s t : State} (ht : exec i s = .next t) :
    t.fault = s.fault ∨ ∃ e, t = s.raise (some s.pc) e := by
  cases i with
  | add ma mb => exact State.writeResult_fault ht
  | multiply ma mb => exact State.writeResult_fault ht
  | lessThan ma mb => exact State.writeResult_fault ht
  | equals ma mb => exact State.writeResult_fault ht
  | jumpIfNonZero ma mb => exact State.jump_fault ht
  | jumpIfZero ma mb => exact State.jump_fault ht
  | writeOutput ma =>
    rcases execWriteOutput_next ht with ⟨a, -, -, rfl⟩ | ⟨e, rfl, -⟩
    · exact .inl rfl
    · exact .inr ⟨e, rfl⟩
  | readInput =>
    cases hq : s.inq with
    | nil =>
      cases (execReadInput_empty hq).symm.trans ht
      exact .inl rfl
    | cons v rest =>
      rcases execReadInput_next hq ht with ⟨d, -, rfl⟩ | ⟨e, -, rfl⟩
      · exact .inl rfl
      · exact .inr ⟨e, rfl⟩
  | halt =>
    cases (execHalt_eq s).symm.trans ht
    exact .inl rfl

/-! ### How a Run ends (41_dispatch_cycle.md R171) -/

/-- A step inside a Run raises, in the fetch, the decoder or the instruction; or it executes a decoded
instruction that raises nothing. -/
theorem step_inRun_cases {s t : State} (hr : s.inRun = true) (h : step s = .next t) :
    (∃ e, t = (s.raise (some s.pc) e).endCycle) ∨
    ∃ i u, s.fetchDecode = .ok i ∧ exec i s = .next u ∧ u.fault = none ∧ t = u.endCycle := by
  rw [step_inRun hr] at h
  rcases State.cycle_next h with ⟨e, -, rfl⟩ | ⟨i, u, hi, hu, rfl⟩
  · exact .inl ⟨e, rfl⟩
  · rcases exec_fault hu with hsame | ⟨e, rfl⟩
    · exact .inr ⟨i, u, hi, hu, hsame.trans (State.inRun_iff.1 hr).2, rfl⟩
    · exact .inl ⟨e, rfl⟩

/-- Settles O31: by `step_inRun_cases`, and for an instruction that raises nothing by `exec_state`. -/
theorem runEndsInThreeWays : Obligations.RunEndsInThreeWays := by
  intro s t hrun hnone h
  rcases step_inRun_cases (State.inRun_iff.2 ⟨hrun, hnone⟩) h with ⟨e, rfl⟩ | ⟨i, u, hi, hu, hf, rfl⟩
  · exact .inr (.inr (.inr ⟨⟨e, some s.pc⟩, rfl, rfl, rfl⟩))
  · obtain ⟨-, -, -, hresps, -⟩ := exec_keeps hu
    rcases exec_state hu with hsame | ⟨rfl, hq, hst⟩ | ⟨rfl, hst⟩
    · rw [State.endCycle_running hf (hsame.trans hrun)]
      exact .inl ⟨hsame.trans hrun, hf, hresps⟩
    · rw [State.endCycle_stopped hf (by simp [hst])]
      exact .inr (.inl ⟨hst, hf, hq, hi, by simp [hresps, hst]⟩)
    · rw [State.endCycle_stopped hf (by simp [hst])]
      exact .inr (.inr (.inl ⟨hst, hf, hi, by simp [hresps, hst]⟩))

end Sys2Proof.Machine

namespace Sys2Proof

/-! ### What a stored result is (42_arithmetic.md R200) -/

/-- `wrapWord` is the only Word of its width that is congruent to the exact result. -/
theorem wrapWord_eq_of_congruent {w : Nat} (hw : 1 ≤ w) {r v : Int} (hlo : -(halfRange w) ≤ v)
    (hhi : v ≤ halfRange w - 1) (hmod : v % ((2 ^ w : Nat) : Int) = r % ((2 ^ w : Nat) : Int)) :
    wrapWord w r = v := by
  have hrange := halfRange_two_mul hw
  have hdvd : ((2 ^ w : Nat) : Int) ∣ v - r :=
    Int.dvd_of_emod_eq_zero (Int.emod_eq_emod_iff_emod_sub_eq_zero.1 hmod)
  exact (Int.bmod_eq_iff (Nat.two_pow_pos w)).2 ⟨by omega, by omega, hdvd⟩

/-- Under wrap, a result that does not fit is stored as the Word congruent to it. -/
theorem Config.store_of_congruent {c : Config} {n : Nat} {r v : Int} (hl : c.legal = true)
    (hn : c.wordBits = some n) (hr : c.fits r = false) (hwrap : c.overflow = .wrap) (hv : c.fits v = true)
    (hmod : v % ((2 ^ n : Nat) : Int) = r % ((2 ^ n : Nat) : Int)) : c.store r = .ok v := by
  have hwidth := c.legal_width hl hn
  obtain ⟨hlo, hhi⟩ := (c.fits_iff hn).1 hv
  rw [c.store_wrap hr hwrap hn, wrapWord_eq_of_congruent (by omega) hlo hhi hmod]

/-! ### The words of an instruction with two source modes -/

/-- Which words decode to an instruction with two source modes (30_encoding.md R92, R96, R98). -/
theorem decode_ok_iff_of_two_modes {i : Instr} {ma mb : Mode} (hm : i.modes = [ma, mb]) (w : Int) :
    decode w = .ok i ↔
      0 ≤ w ∧ w.toNat % 100 = i.handler.row.opcode ∧ digit w.toNat 2 = ma.digit ∧
        digit w.toNat 3 = mb.digit := by
  rw [decode_ok_iff_digits, hm]
  simp [forall_getElem?_cons]

/-- The canonical word of an instruction with two source modes (30_encoding.md R107). -/
theorem encodeWord_of_two_modes {i : Instr} {ma mb : Mode} (hm : i.modes = [ma, mb]) :
    encodeWord i = (i.handler.row.opcode : Int) + 100 * (ma.digit : Int) + 1000 * (mb.digit : Int) := by
  simp only [encodeWord, hm, modeDigits]
  omega

end Sys2Proof

namespace Sys2Proof.Machine

/-! ### Instructions of the shape `writeResult` -/

/-- An instruction that ends as an error taken at its own PC raises that error (60_exceptions.md R308). -/
theorem Raises.of_exec_raise {i : Instr} {s : State} {e : ErrorInfo}
    (h : exec i s = .next (s.raise (some s.pc) e)) : Raises i s e :=
  ⟨_, h, rfl⟩

/-- The first failure of an instruction with two sources and a destination, parameter 0 first
(41_dispatch_cycle.md R178). -/
theorem State.FirstFailure.two_sources_dest {s : State} {i : Instr} {ma mb : Mode} {e : ErrorInfo}
    (hm : i.modes = [ma, mb]) (hp : i.params = 3) (h : s.FirstFailure i e) :
    s.OperandFails 0 ma e ∨ ∃ a, s.OperandIs 0 ma a ∧
      (s.OperandFails 1 mb e ∨ ∃ b, s.OperandIs 1 mb b ∧ s.DestinationFails 2 e) := by
  obtain ⟨k, hk, hbefore, hfail⟩ := h
  have hfirst (h0 : 0 < k) : ∃ a, s.OperandIs 0 ma a := by simpa [State.Resolves, hm] using hbefore 0 h0
  have hsecond (h1 : 1 < k) : ∃ b, s.OperandIs 1 mb b := by simpa [State.Resolves, hm] using hbefore 1 h1
  match k with
  | 0 => exact .inl (by simpa [State.ResolveFails, hm] using hfail)
  | 1 =>
    obtain ⟨a, ha⟩ := hfirst (by decide)
    exact .inr ⟨a, ha, .inl (by simpa [State.ResolveFails, hm] using hfail)⟩
  | 2 =>
    obtain ⟨a, ha⟩ := hfirst (by decide)
    obtain ⟨b, hb⟩ := hsecond (by decide)
    exact .inr ⟨a, ha, .inr ⟨b, hb, by simpa [State.ResolveFails, hm] using hfail⟩⟩
  | k + 3 => omega

/-- `writeResult` on parameters of which one does not resolve. -/
theorem State.writeResult_unresolved {s : State} {h : Handler} {ma mb : Mode}
    {f : Int → Int → Except ErrorInfo Int} {e : ErrorInfo}
    (hfail : s.OperandFails 0 ma e ∨ ∃ a, s.OperandIs 0 ma a ∧
      (s.OperandFails 1 mb e ∨ ∃ b, s.OperandIs 1 mb b ∧ s.DestinationFails 2 e)) :
    s.writeResult h ma mb f = .next (s.raise (some s.pc) e) := by
  simp only [← State.source_ok, ← State.source_error, ← State.destination_error] at hfail
  unfold State.writeResult
  rcases hfail with ha | ⟨a, ha, hb | ⟨b, hb, hd⟩⟩
  · rw [ha]; rfl
  · rw [ha, hb]; rfl
  · rw [ha, hb, hd]; rfl

/-- An instruction of the shape `writeResult` raises the error of its first parameter that does not resolve. -/
theorem raises_of_firstFailure {i : Instr} {s : State} {h : Handler} {ma mb : Mode}
    {f : Int → Int → Except ErrorInfo Int} (hexec : exec i s = s.writeResult h ma mb f)
    (hm : i.modes = [ma, mb]) (hp : i.params = 3) {e : ErrorInfo} (hfail : s.FirstFailure i e) :
    Raises i s e :=
  .of_exec_raise (hexec.trans (State.writeResult_unresolved (hfail.two_sources_dest hm hp)))

section
/- An instruction of the shape `writeResult` all of whose parameters resolve. -/
variable {i : Instr} {s : State} {h : Handler} {ma mb : Mode} {a b d : Int}
  (ha : s.OperandIs 0 ma a) (hb : s.OperandIs 1 mb b) (hd : s.DestinationIs 2 d)
include ha hb hd

/-- The Word computed is written, and PC advances. -/
theorem exec_of_result_ok {f : Int → Int → Except ErrorInfo Int}
    (hexec : exec i s = s.writeResult h ma mb f) {v : Int} (hv : f a b = .ok v) :
    exec i s = .next { s with mem := Memory.write s.mem d v, pc := s.pc + h.row.adv } := by
  rw [hexec, State.writeResult_resolved ha hb hd, hv]

/-- The error of the computation is raised. -/
theorem raises_of_result_error {f : Int → Int → Except ErrorInfo Int}
    (hexec : exec i s = s.writeResult h ma mb f) {e : ErrorInfo} (he : f a b = .error e) : Raises i s e :=
  .of_exec_raise (by rw [hexec, State.writeResult_resolved ha hb hd, he])

/-- The three cases of `Store` (42_arithmetic.md R200) for the exact result of an operation on the two operands:
it fits, or traps, or wraps. -/
theorem exec_store_cases {op : Int → Int → Int}
    (hexec : exec i s = s.writeResult h ma mb fun x y => s.cfg.store (op x y)) :
    (s.cfg.fits (op a b) = true →
      exec i s = .next { s with mem := Memory.write s.mem d (op a b), pc := s.pc + h.row.adv }) ∧
    (s.cfg.fits (op a b) = false → s.cfg.overflow = .trap → Raises i s (.arithmeticOverflow (op a b))) ∧
    (∀ n v, s.cfg.legal = true → s.cfg.wordBits = some n → s.cfg.fits (op a b) = false →
      s.cfg.overflow = .wrap → s.cfg.fits v = true →
      v % ((2 ^ n : Nat) : Int) = op a b % ((2 ^ n : Nat) : Int) →
      exec i s = .next { s with mem := Memory.write s.mem d v, pc := s.pc + h.row.adv }) := by
  refine ⟨fun hfit => ?_, fun hfit htrap => ?_, fun n v hl hn hfit hwrap hv hmod => ?_⟩
  · exact exec_of_result_ok ha hb hd hexec (Config.store_of_fits hfit)
  · exact raises_of_result_error ha hb hd hexec (Config.store_trap hfit htrap)
  · exact exec_of_result_ok ha hb hd hexec (Config.store_of_congruent hl hn hfit hwrap hv hmod)

end

/-! ### Add and Multiply (42_arithmetic.md R201, R202) -/

/-- Settles O12: the three cases of `Store` by `exec_store_cases`, the errors of the step by
`raises_of_firstFailure`. -/
theorem addStoresSum : Obligations.AddStoresSum := by
  intro s ma mb
  have hexec : exec (.add ma mb) s = s.writeResult .add ma mb fun a b => s.cfg.store (a + b) := rfl
  exact ⟨decode_ok_iff_of_two_modes rfl,
    fun a b d ha hb hd => exec_store_cases (op := fun x y => x + y) ha hb hd hexec,
    fun e hfail => raises_of_firstFailure hexec rfl rfl hfail, encodeWord_of_two_modes rfl⟩

/-- Settles O13: as for Add, with the product for the sum. -/
theorem multiplyStoresProduct : Obligations.MultiplyStoresProduct := by
  intro s ma mb
  have hexec : exec (.multiply ma mb) s = s.writeResult .multiply ma mb fun a b => s.cfg.store (a * b) := rfl
  exact ⟨decode_ok_iff_of_two_modes rfl,
    fun a b d ha hb hd => exec_store_cases (op := fun x y => x * y) ha hb hd hexec,
    fun e hfail => raises_of_firstFailure hexec rfl rfl hfail, encodeWord_of_two_modes rfl⟩

end Sys2Proof.Machine

namespace Sys2Proof.Machine

/-! ### ReadInput and WriteOutput (43_io.md R220, R221) -/

/-- ReadInput with an entry and a destination that does not resolve. -/
theorem execReadInput_unresolved {s : State} {v : Int} {rest : List Int} {e : ErrorInfo}
    (h : s.inq = v :: rest) (hd : s.DestinationFails 0 e) :
    execReadInput s = .next (s.raise (some s.pc) e) := by
  simp only [execReadInput, h]
  rw [State.destination_error.2 hd]
  rfl

/-- WriteOutput on an operand that does not resolve. -/
theorem execWriteOutput_unresolved {s : State} {ma : Mode} {e : ErrorInfo}
    (ha : s.OperandFails 0 ma e) : execWriteOutput ma s = .next (s.raise (some s.pc) e) := by
  unfold execWriteOutput
  rw [State.source_error.2 ha]
  rfl

/-- WriteOutput with room in the output FIFO. -/
theorem execWriteOutput_not_full {s : State} {ma : Mode} {a : Int} (ha : s.OperandIs 0 ma a)
    (hroom : s.cfg.outDepth ≠ some s.outq.length) :
    execWriteOutput ma s = .next { s with outq := s.outq ++ [a], pc := s.pc + 2 } := by
  rw [execWriteOutput_resolved ha, if_neg (mt atCap_iff.1 hroom)]

/-- WriteOutput on an output FIFO that holds its capacity (10_state.md R41). -/
theorem execWriteOutput_full {s : State} {ma : Mode} {a : Int} (ha : s.OperandIs 0 ma a)
    (hfull : s.cfg.outDepth = some s.outq.length) :
    execWriteOutput ma s = .next (s.raise (some s.pc) (.fifoOverflow a)) := by
  rw [execWriteOutput_resolved ha, if_pos (atCap_iff.2 hfull)]

/-- Which words decode to ReadInput: it has no source parameter, so no mode digit is read
(30_encoding.md R96, R98). -/
theorem decode_readInput_iff (w : Int) : decode w = .ok .readInput ↔ 0 ≤ w ∧ w.toNat % 100 = 3 := by
  rw [decode_ok_iff_digits]
  simp [Instr.handler, Handler.row, Instr.modes]

/-- Which words decode to WriteOutput: only the digit of its one source mode is read. -/
theorem decode_writeOutput_iff (ma : Mode) (w : Int) :
    decode w = .ok (.writeOutput ma) ↔ 0 ≤ w ∧ w.toNat % 100 = 4 ∧ digit w.toNat 2 = ma.digit := by
  rw [decode_ok_iff_digits]
  simp [Instr.handler, Handler.row, Instr.modes, forall_getElem?_cons]

/-- The canonical word of WriteOutput (30_encoding.md R107). -/
theorem encodeWord_writeOutput (ma : Mode) : encodeWord (.writeOutput ma) = 4 + 100 * (ma.digit : Int) := by
  cases ma <;> rfl

/-- Settles O14: the block by `execReadInput_empty`; with an entry, by whether the destination resolves. -/
theorem readInputPopsOrBlocks : Obligations.ReadInputPopsOrBlocks := by
  intro s
  exact ⟨decode_readInput_iff, rfl, execReadInput_empty, fun v rest hq =>
    ⟨fun d hd => execReadInput_resolved hq hd,
      fun e hd => .of_exec_raise (execReadInput_unresolved hq hd)⟩⟩

/-- Settles O15: an operand that resolves, by whether the output FIFO is full; one that does not, by
`execWriteOutput_unresolved`. -/
theorem writeOutputPushes : Obligations.WriteOutputPushes := by
  intro s ma
  exact ⟨decode_writeOutput_iff ma, fun a ha =>
    ⟨fun hroom => execWriteOutput_not_full ha hroom,
      fun hfull => .of_exec_raise (execWriteOutput_full ha hfull)⟩,
    fun e ha => .of_exec_raise (execWriteOutput_unresolved ha), encodeWord_writeOutput ma⟩

end Sys2Proof.Machine

namespace Sys2Proof.Machine

/-! ### Instructions of the shape `jump` -/

/-- The first failure of an instruction whose only parameters are two sources, parameter 0 first
(41_dispatch_cycle.md R178). -/
theorem State.FirstFailure.two_sources {s : State} {i : Instr} {ma mb : Mode} {e : ErrorInfo}
    (hm : i.modes = [ma, mb]) (hp : i.params = 2) (h : s.FirstFailure i e) :
    s.OperandFails 0 ma e ∨ ∃ a, s.OperandIs 0 ma a ∧ s.OperandFails 1 mb e := by
  obtain ⟨k, hk, hbefore, hfail⟩ := h
  match k with
  | 0 => exact .inl (by simpa [State.ResolveFails, hm] using hfail)
  | 1 =>
    obtain ⟨a, ha⟩ : ∃ a, s.OperandIs 0 ma a := by simpa [State.Resolves, hm] using hbefore 0 (by decide)
    exact .inr ⟨a, ha, by simpa [State.ResolveFails, hm] using hfail⟩
  | k + 2 => omega

/-- `jump` on operands of which one does not resolve: its error is taken, whatever the condition. -/
theorem State.jump_unresolved {s : State} {h : Handler} {ma mb : Mode} {taken : Int → Bool} {e : ErrorInfo}
    (hfail : s.OperandFails 0 ma e ∨ ∃ a, s.OperandIs 0 ma a ∧ s.OperandFails 1 mb e) :
    s.jump h ma mb taken = .next (s.raise (some s.pc) e) := by
  simp only [← State.source_ok, ← State.source_error] at hfail
  unfold State.jump
  rcases hfail with ha | ⟨a, ha, hb⟩
  · rw [ha]; rfl
  · rw [ha, hb]; rfl

section
/- An instruction of the shape `jump`. -/
variable {i : Instr} {s : State} {h : Handler} {ma mb : Mode} {taken : Int → Bool}
  (hexec : exec i s = s.jump h ma mb taken)
include hexec

/-- It raises the error of its first parameter that does not resolve. -/
theorem raises_of_jump_firstFailure (hm : i.modes = [ma, mb]) (hp : i.params = 2) {e : ErrorInfo}
    (hfail : s.FirstFailure i e) : Raises i s e :=
  .of_exec_raise (hexec.trans (State.jump_unresolved (hfail.two_sources hm hp)))

variable {a b : Int} (ha : s.OperandIs 0 ma a) (hb : s.OperandIs 1 mb b)
include ha hb

/-- Taken to a target in [0, N): PC is the target and the declared advance. -/
theorem exec_of_jump_taken (ht : taken a = true) (hlo : 0 ≤ b) (hhi : b < (s.mem.length : Int)) :
    exec i s = .next { s with pc := b.toNat + h.row.adv } := by
  rw [hexec, State.jump_resolved ha hb, if_pos ht, if_pos (State.inRange_iff.2 ⟨hlo, hhi⟩)]

/-- Taken to a target outside [0, N): MemoryOutOfBounds of the target (44_jumps.md R240, R241). -/
theorem raises_of_jump_target_outside (ht : taken a = true) (hout : ¬(0 ≤ b ∧ b < (s.mem.length : Int))) :
    Raises i s (.memoryOutOfBounds b) :=
  .of_exec_raise (by
    rw [hexec, State.jump_resolved ha hb, if_pos ht, if_neg (mt State.inRange_iff.1 hout)])

/-- Not taken: PC goes past the instruction, and the target is not checked. -/
theorem exec_of_jump_not_taken (ht : ¬ taken a = true) :
    exec i s = .next { s with pc := s.pc + h.row.len + h.row.adv } := by
  rw [hexec, State.jump_resolved ha hb, if_neg ht]

end

/-! ### JumpIfNonZero and JumpIfZero (44_jumps.md R240, R241) -/

theorem isNonZero_iff {a : Int} : isNonZero a = true ↔ a ≠ 0 := decide_eq_true_iff

theorem isZero_iff {a : Int} : isZero a = true ↔ a = 0 := decide_eq_true_iff

/-- Settles O16: the three outcomes of a jump whose operands resolve, with `isNonZero_iff` for the condition;
an operand that does not, by `raises_of_jump_firstFailure`. -/
theorem jumpIfNonZeroJumps : Obligations.JumpIfNonZeroJumps := by
  intro s ma mb
  have hexec : exec (.jumpIfNonZero ma mb) s = s.jump .jumpIfNonZero ma mb isNonZero := rfl
  refine ⟨decode_ok_iff_of_two_modes rfl, fun a b ha hb => ⟨fun h hlo hhi => ?_, fun h hout => ?_, fun h => ?_⟩,
    fun e hfail => raises_of_jump_firstFailure hexec rfl rfl hfail, encodeWord_of_two_modes rfl⟩
  · exact exec_of_jump_taken hexec ha hb (isNonZero_iff.2 h) hlo hhi
  · exact raises_of_jump_target_outside hexec ha hb (isNonZero_iff.2 h) hout
  · exact exec_of_jump_not_taken hexec ha hb (mt isNonZero_iff.1 (not_not.2 h))

/-- Settles O17: as for JumpIfNonZero, with `isZero_iff` for the condition. -/
theorem jumpIfZeroJumps : Obligations.JumpIfZeroJumps := by
  intro s ma mb
  have hexec : exec (.jumpIfZero ma mb) s = s.jump .jumpIfZero ma mb isZero := rfl
  refine ⟨decode_ok_iff_of_two_modes rfl, fun a b ha hb => ⟨fun h hlo hhi => ?_, fun h hout => ?_, fun h => ?_⟩,
    fun e hfail => raises_of_jump_firstFailure hexec rfl rfl hfail, encodeWord_of_two_modes rfl⟩
  · exact exec_of_jump_taken hexec ha hb (isZero_iff.2 h) hlo hhi
  · exact raises_of_jump_target_outside hexec ha hb (isZero_iff.2 h) hout
  · exact exec_of_jump_not_taken hexec ha hb (mt isZero_iff.1 h)

end Sys2Proof.Machine

namespace Sys2Proof.Machine

/-! ### LessThan and Equals (45_compare.md R260, R261) -/

theorem truthWord_of_true {p : Prop} [Decidable p] (hp : p) : truthWord (decide p) = 1 :=
  if_pos (decide_eq_true hp)

theorem truthWord_of_false {p : Prop} [Decidable p] (hp : ¬ p) : truthWord (decide p) = 0 :=
  if_neg (mt of_decide_eq_true hp)

/-- The two outcomes of a comparison whose parameters all resolve: 1 is stored where the relation holds of the
operands, and 0 where it does not. -/
theorem exec_truth_cases {i : Instr} {s : State} {h : Handler} {ma mb : Mode} {a b d : Int}
    {rel : Int → Int → Prop} [DecidableRel rel]
    (ha : s.OperandIs 0 ma a) (hb : s.OperandIs 1 mb b) (hd : s.DestinationIs 2 d)
    (hexec : exec i s = s.writeResult h ma mb fun x y => .ok (truthWord (decide (rel x y)))) :
    (rel a b → exec i s = .next { s with mem := Memory.write s.mem d 1, pc := s.pc + h.row.adv }) ∧
    (¬ rel a b → exec i s = .next { s with mem := Memory.write s.mem d 0, pc := s.pc + h.row.adv }) := by
  refine ⟨fun hrel => ?_, fun hrel => ?_⟩
  · exact exec_of_result_ok ha hb hd hexec (congrArg Except.ok (truthWord_of_true hrel))
  · exact exec_of_result_ok ha hb hd hexec (congrArg Except.ok (truthWord_of_false hrel))

/-- Settles O18: the two outcomes by `exec_truth_cases`, the errors of the step by `raises_of_firstFailure`. -/
theorem lessThanStoresTruth : Obligations.LessThanStoresTruth := by
  intro s ma mb
  have hexec : exec (.lessThan ma mb) s =
      s.writeResult .lessThan ma mb fun a b => .ok (truthWord (decide (a < b))) := rfl
  exact ⟨decode_ok_iff_of_two_modes rfl,
    fun a b d ha hb hd => exec_truth_cases (rel := fun x y => x < y) ha hb hd hexec,
    fun e hfail => raises_of_firstFailure hexec rfl rfl hfail, encodeWord_of_two_modes rfl⟩

/-- Settles O19: as for LessThan, with equality for the signed order. -/
theorem equalsStoresTruth : Obligations.EqualsStoresTruth := by
  intro s ma mb
  have hexec : exec (.equals ma mb) s =
      s.writeResult .equals ma mb fun a b => .ok (truthWord (decide (a = b))) := rfl
  exact ⟨decode_ok_iff_of_two_modes rfl,
    fun a b d ha hb hd => exec_truth_cases (rel := fun x y => x = y) ha hb hd hexec,
    fun e hfail => raises_of_firstFailure hexec rfl rfl hfail, encodeWord_of_two_modes rfl⟩

end Sys2Proof.Machine

namespace Sys2Proof.Machine

/-! ### Halt (46_halt.md R280) -/

/-- Which words decode to Halt: it has no parameter, so no mode digit is read (30_encoding.md R96, R98). -/
theorem decode_halt_iff (w : Int) : decode w = .ok .halt ↔ 0 ≤ w ∧ w.toNat % 100 = 99 := by
  rw [decode_ok_iff_digits]
  simp [Instr.handler, Handler.row, Instr.modes]

/-- Inside a Run, a step that fetches and decodes an instruction runs it, and then the Run loop looks at the
state that it left (41_dispatch_cycle.md R170, R171). -/
theorem step_of_exec {s t : State} {i : Instr} (hr : s.inRun = true) (hi : s.fetchDecode = .ok i)
    (ht : exec i s = .next t) : step s = .next t.endCycle := by
  simp [step_inRun hr, State.cycle, hi, ht]

/-- Settles O20: exec by `execHalt_eq`; the step by `step_of_exec`, and the answer by `State.endCycle_stopped`,
as the state it leaves is Halted with no fault. -/
theorem haltStopsRun : Obligations.HaltStopsRun := by
  intro s
  have hexec : exec .halt s = .next { s with state := .halted, pc := s.pc + s.cfg.haltPcAdvance.val } :=
    execHalt_eq s
  refine ⟨decode_halt_iff, rfl, hexec, fun hrunning hfault hword => ?_⟩
  have hstep := step_of_exec (State.inRun_iff.2 ⟨hrunning, hfault⟩) (State.fetchDecode_ok.2 hword) hexec
  exact hstep.trans (congrArg Host.Outcome.next (State.endCycle_stopped hfault nofun))

end Sys2Proof.Machine

namespace Sys2Proof

/-! ### What the decoder refuses (30_encoding.md R93, R97, R104) -/

/-- A mode digit that selects a mode is 0 or 1 (30_encoding.md R94). -/
theorem exists_sourceMode_ok {w : Int} {k : Nat} :
    (∃ m, sourceMode w k = .ok m) ↔ digit w.toNat (k + 2) ≤ 1 := by
  constructor
  · rintro ⟨m, hm⟩
    rw [sourceMode_ok.1 hm]
    cases m <;> decide
  · intro hdigit
    cases hm : sourceMode w k with
    | ok m => exact ⟨m, rfl⟩
    | error e => exact absurd (sourceMode_error.1 hm).1 (by omega)

/-- Two source modes that are checked lowest first (41_dispatch_cycle.md R176): the error is that of the lower
digit that selects no mode. -/
theorem sourceModes_pair_error {w : Int} {f : Mode → Mode → Instr} {e : ErrorInfo} :
    (do let a ← sourceMode w 0; let b ← sourceMode w 1; .ok (f a b)) = Except.error e ↔
      (2 ≤ digit w.toNat 2 ∧ e = .invalidAddressingMode 0 w) ∨
      (2 ≤ digit w.toNat 3 ∧ digit w.toNat 2 ≤ 1 ∧ e = .invalidAddressingMode 1 w) := by
  simp [Machine.except_bind_error, sourceMode_error, exists_sourceMode_ok, and_left_comm]

/-- The mode check of a handler's row refuses a word exactly for its lowest source parameter whose digit selects
no mode. -/
theorem selectInstr_error {w : Int} {h : Handler} {e : ErrorInfo} :
    selectInstr w h = .error e ↔
      ∃ k ∈ h.row.sources, 2 ≤ digit w.toNat (k + 2) ∧
        (∀ j ∈ h.row.sources, j < k → digit w.toNat (j + 2) ≤ 1) ∧ e = .invalidAddressingMode k w := by
  cases h with
  | add | multiply | jumpIfNonZero | jumpIfZero | lessThan | equals =>
    exact sourceModes_pair_error.trans (by simp [Handler.row])
  | writeOutput => simp [selectInstr, Handler.row, Machine.except_bind_error, sourceMode_error]
  | readInput | halt => simp [selectInstr, Handler.row]

/-- A word whose opcode has a row goes to the mode check of that row. -/
theorem decode_of_opcode {w : Int} {h : Handler} (hw : 0 ≤ w) (hop : h.row.opcode = w.toNat % 100) :
    decode w = selectInstr w h := by
  rw [decode, if_neg (not_lt.2 hw), ← hop, romLookup_opcode]
  exact congrArg (selectInstr w) h.row_handler

/-- A negative word, and a word whose opcode has no row. -/
theorem decode_of_no_row {w : Int} (h : w < 0 ∨ romLookup (w.toNat % 100) = none) :
    decode w = .error (.unknownOpcode w) := by
  unfold decode
  split
  · rfl
  · rw [h.resolve_left ‹_›]

/-- The opcodes without a row (10_state.md R44). -/
theorem romLookup_eq_none {op : Nat} : romLookup op = none ↔ op ∉ [1, 2, 3, 4, 5, 6, 7, 8, 99] := by
  simp [romLookup, dispatchRom, Handler.row, @eq_comm Nat op]

/-- The words without a row (30_encoding.md R93, R103, R104). -/
theorem no_row_iff {w : Int} :
    (w < 0 ∨ romLookup (w.toNat % 100) = none) ↔ w < 0 ∨ w % 100 = 0 ∨ (9 ≤ w % 100 ∧ w % 100 ≤ 98) := by
  simp only [romLookup_eq_none, List.mem_cons, List.not_mem_nil, or_false]
  omega

/-- All that the decoder can refuse: a word that has no row, or a source mode of its row. -/
theorem decode_error {w : Int} {e : ErrorInfo} :
    decode w = .error e ↔
      ((w < 0 ∨ romLookup (w.toNat % 100) = none) ∧ e = .unknownOpcode w) ∨
      (0 ≤ w ∧ ∃ h : Handler, h.row.opcode = w.toNat % 100 ∧ selectInstr w h = .error e) := by
  by_cases hno : w < 0 ∨ romLookup (w.toNat % 100) = none
  · rw [decode_of_no_row hno]
    constructor
    · rintro ⟨⟩
      exact .inl ⟨hno, rfl⟩
    · rintro (⟨-, rfl⟩ | ⟨hw, h, hop, -⟩)
      · rfl
      · have hlook := hno.resolve_left (not_lt.2 hw)
        rw [← hop, romLookup_opcode] at hlook
        cases hlook
  · obtain ⟨hneg, hsome⟩ := not_or.1 hno
    have hw := not_lt.1 hneg
    constructor
    · intro he
      obtain ⟨r, hr⟩ := Option.ne_none_iff_exists'.1 hsome
      obtain ⟨h, -, hop⟩ := romLookup_eq_some.1 hr
      exact .inr ⟨hw, h, hop, (decode_of_opcode hw hop).symm.trans he⟩
    · rintro (⟨hno', -⟩ | ⟨-, h, hop, he⟩)
      · exact absurd hno' hno
      · exact (decode_of_opcode hw hop).trans he

/-- The decoder answers UnknownOpcode only for a word without a row: the mode check has another error. -/
theorem decode_unknownOpcode {w : Int} :
    decode w = .error (.unknownOpcode w) ↔ w < 0 ∨ w % 100 = 0 ∨ (9 ≤ w % 100 ∧ w % 100 ≤ 98) := by
  simp [decode_error, selectInstr_error, no_row_iff]

theorem Handler.row_mem (h : Handler) : h.row ∈ dispatchRom := by cases h <;> decide

/-- The rows of the dispatch ROM are those of the handlers. -/
theorem exists_mem_dispatchRom {P : RomRow → Prop} : (∃ r ∈ dispatchRom, P r) ↔ ∃ h : Handler, P h.row := by
  constructor
  · rintro ⟨r, hr, hP⟩
    obtain ⟨h, -, rfl⟩ := List.mem_map.1 hr
    exact ⟨h, hP⟩
  · rintro ⟨h, hP⟩
    exact ⟨h.row, h.row_mem, hP⟩

/-- The decoder answers InvalidAddressingMode for the lowest source parameter whose digit selects no mode. -/
theorem decode_invalidAddressingMode {w : Int} {k : Nat} :
    decode w = .error (.invalidAddressingMode k w) ↔
      0 ≤ w ∧ ∃ r ∈ dispatchRom, r.opcode = w.toNat % 100 ∧ k ∈ r.sources ∧
        2 ≤ digit w.toNat (k + 2) ∧ ∀ j ∈ r.sources, j < k → digit w.toNat (j + 2) ≤ 1 := by
  rw [exists_mem_dispatchRom]
  simp [decode_error, selectInstr_error]

end Sys2Proof

namespace Sys2Proof.Machine

/-! ### The errors of a step (60_exceptions.md R310) -/

/-- A step inside a Run raises an error in the fetch or the decoder, or in the instruction it decoded. -/
theorem stepRaises_iff {s : State} {e : ErrorInfo} (hr : s.inRun = true) :
    StepRaises s e ↔ s.fetchDecode = .error e ∨ ∃ i, s.fetchDecode = .ok i ∧ Raises i s e := by
  constructor
  · rintro ⟨t, ht, hf⟩
    rw [step_inRun hr] at ht
    rcases State.cycle_next ht with ⟨e', he, rfl⟩ | ⟨i, u, hi, hu, rfl⟩
    · obtain rfl : e' = e := by simpa using hf
      exact .inl he
    · exact .inr ⟨i, hi, u, hu, by simpa using hf⟩
  · rintro (he | ⟨i, hi, t, ht, hf⟩)
    · exact ⟨(s.raise (some s.pc) e).endCycle, by simp [step_inRun hr, State.cycle, he], by simp⟩
    · exact ⟨t.endCycle, step_of_exec hr hi ht, by simpa using hf⟩

/-- What the decoder refuses, a step inside a Run raises, whatever stands after the word in memory. -/
theorem stepRaises_of_decode_error {s : State} {w : Int} {e : ErrorInfo} (hr : s.inRun = true)
    (hword : Memory.read s.mem (s.pc : Int) = some w) (he : decode w = .error e) : StepRaises s e :=
  (stepRaises_iff hr).2 (.inl (State.fetchDecode_error.2 (.inr ⟨w, hword, he⟩)))

/-- Settles O4: the decoder by `decode_unknownOpcode`, the step by `stepRaises_of_decode_error`. -/
theorem unknownOpcodeExactly : Obligations.UnknownOpcodeExactly := by
  intro w
  exact ⟨decode_unknownOpcode, fun s hrunning hfault hword hw =>
    stepRaises_of_decode_error (State.inRun_iff.2 ⟨hrunning, hfault⟩) hword (decode_unknownOpcode.2 hw)⟩

/-- Settles O5: the decoder by `decode_invalidAddressingMode`, the step by `stepRaises_of_decode_error`. -/
theorem invalidAddressingModeExactly : Obligations.InvalidAddressingModeExactly := by
  intro w k
  exact ⟨decode_invalidAddressingMode, fun s hrunning hfault hword he =>
    stepRaises_of_decode_error (State.inRun_iff.2 ⟨hrunning, hfault⟩) hword he⟩

section
/- The parameters of an instruction in the manual's order (41_dispatch_cycle.md R178): with every parameter below
`k` resolved, one that fails is the first to fail, and one that resolves leads to parameter `k + 1`. -/
variable {s : State} (i : Instr) (k : Nat) {e : ErrorInfo} {rest : Int → Prop} (hk : k < i.params)
  (hbelow : ∀ j, j < k → s.Resolves i j)
include hk hbelow

/-- Parameter `k` is a source. -/
theorem State.firstFailure_or_source {m : Mode} (hm : i.modes[k]? = some m)
    (h : s.OperandFails k m e ∨ ∃ v, s.OperandIs k m v ∧ rest v) :
    s.FirstFailure i e ∨ (∀ j, j < k + 1 → s.Resolves i j) ∧ ∃ v, s.OperandIs k m v ∧ rest v := by
  refine h.imp (fun hfail => ⟨k, hk, hbelow, ?_⟩) fun ⟨v, hv, hrest⟩ =>
    ⟨Nat.forall_lt_succ_right.2 ⟨hbelow, ?_⟩, v, hv, hrest⟩
  · simpa [State.ResolveFails, hm] using hfail
  · simpa [State.Resolves, hm] using ⟨v, hv⟩

/-- Parameter `k` is the destination. -/
theorem State.firstFailure_or_destination (hm : i.modes[k]? = none)
    (h : s.DestinationFails k e ∨ ∃ d, s.DestinationIs k d ∧ rest d) :
    s.FirstFailure i e ∨ (∀ j, j < k + 1 → s.Resolves i j) ∧ ∃ d, s.DestinationIs k d ∧ rest d := by
  refine h.imp (fun hfail => ⟨k, hk, hbelow, ?_⟩) fun ⟨d, hd, hrest⟩ =>
    ⟨Nat.forall_lt_succ_right.2 ⟨hbelow, ?_⟩, d, hd, hrest⟩
  · simpa [State.ResolveFails, hm] using hfail
  · simpa [State.Resolves, hm] using ⟨d, hd⟩

end

/-- The error that is recorded is the one that was taken. -/
theorem raise_error_eq {s : State} {e e' : ErrorInfo}
    (h : (s.raise (some s.pc) e').fault = some ⟨e, some s.pc⟩) : e' = e := by
  simpa using h

section
/- An instruction that starts with no fault recorded, as inside a Run, and has two source parameters. -/
variable {s : State} {i : Instr} {h : Handler} {ma mb : Mode} {e : ErrorInfo} (hnone : s.fault = none)
  (hm : i.modes = [ma, mb])
include hnone hm

/-- The errors of an instruction of the shape `writeResult`: its first parameter that does not resolve, or its
computation's. -/
theorem raises_iff_of_writeResult {f : Int → Int → Except ErrorInfo Int}
    (hexec : exec i s = s.writeResult h ma mb f) (hp : i.params = 3) :
    Raises i s e ↔ s.FirstFailure i e ∨
      (s.AllResolve i ∧ ∃ a b, s.OperandIs 0 ma a ∧ s.OperandIs 1 mb b ∧ f a b = .error e) := by
  constructor
  · rintro ⟨t, ht, hfault⟩
    rcases State.writeResult_next (hexec.symm.trans ht) with ⟨a, b, d, v, -, -, -, -, rfl⟩ | ⟨e', rfl, he⟩
    · simp [hnone] at hfault
    obtain rfl := raise_error_eq hfault
    rcases State.firstFailure_or_source i 0 (by omega) nofun (by rw [hm]; rfl) he with hfail | ⟨h1, a, ha, he⟩
    · exact .inl hfail
    rcases State.firstFailure_or_source i 1 (by omega) h1 (by rw [hm]; rfl) he with hfail | ⟨h2, b, hb, he⟩
    · exact .inl hfail
    rcases State.firstFailure_or_destination i 2 (by omega) h2 (by rw [hm]; rfl) he with hfail | ⟨h3, d, -, he⟩
    · exact .inl hfail
    exact .inr ⟨fun k hk => h3 k (hk.trans_eq hp), a, b, ha, hb, he⟩
  · rintro (hfail | ⟨hall, a, b, ha, hb, he⟩)
    · exact raises_of_firstFailure hexec hm hp hfail
    · obtain ⟨d, hd⟩ : ∃ d, s.DestinationIs 2 d := by simpa [State.Resolves, hm] using hall 2 (by omega)
      exact raises_of_result_error ha hb hd hexec he

/-- The errors of an instruction of the shape `jump`: its first parameter that does not resolve, or the target of
a jump that is taken. -/
theorem raises_iff_of_jump {taken : Int → Bool} (hexec : exec i s = s.jump h ma mb taken) (hp : i.params = 2) :
    Raises i s e ↔ s.FirstFailure i e ∨
      (s.AllResolve i ∧ ∃ a b, s.OperandIs 0 ma a ∧ s.OperandIs 1 mb b ∧ taken a = true ∧
        ¬(0 ≤ b ∧ b < (s.mem.length : Int)) ∧ e = .memoryOutOfBounds b) := by
  constructor
  · rintro ⟨t, ht, hfault⟩
    rcases State.jump_next (hexec.symm.trans ht) with
      ⟨a, b, -, -, -, -, rfl⟩ | ⟨a, b, -, -, -, rfl⟩ | ⟨e', rfl, he⟩
    · simp [hnone] at hfault
    · simp [hnone] at hfault
    obtain rfl := raise_error_eq hfault
    rcases State.firstFailure_or_source i 0 (by omega) nofun (by rw [hm]; rfl) he with hfail | ⟨h1, a, ha, he⟩
    · exact .inl hfail
    rcases State.firstFailure_or_source i 1 (by omega) h1 (by rw [hm]; rfl) he with hfail | ⟨h2, b, hb, he⟩
    · exact .inl hfail
    exact .inr ⟨fun k hk => h2 k (hk.trans_eq hp), a, b, ha, hb, he⟩
  · rintro (hfail | ⟨-, a, b, ha, hb, htaken, hout, rfl⟩)
    · exact raises_of_jump_firstFailure hexec hm hp hfail
    · exact raises_of_jump_target_outside hexec ha hb htaken hout

end

/-- The errors of WriteOutput: its operand, then a full output FIFO. -/
theorem raises_writeOutput_iff {s : State} {ma : Mode} {e : ErrorInfo} (hnone : s.fault = none) :
    Raises (.writeOutput ma) s e ↔ s.FirstFailure (.writeOutput ma) e ∨
      (s.AllResolve (.writeOutput ma) ∧ s.HandlerRaises (.writeOutput ma) e) := by
  constructor
  · rintro ⟨t, ht, hfault⟩
    rcases execWriteOutput_next ht with ⟨a, -, -, rfl⟩ | ⟨e', rfl, he⟩
    · simp [hnone] at hfault
    obtain rfl := raise_error_eq hfault
    rcases State.firstFailure_or_source (.writeOutput ma) 0 Nat.zero_lt_one nofun rfl he with
      hfail | ⟨h1, a, ha, hfull, rfl⟩
    · exact .inl hfail
    · exact .inr ⟨h1, a, ha, atCap_iff.1 hfull, rfl⟩
  · rintro (⟨k, hk, -, hfail⟩ | ⟨-, a, ha, hfull, rfl⟩)
    · obtain rfl := Nat.lt_one_iff.1 hk
      exact .of_exec_raise (execWriteOutput_unresolved hfail)
    · exact .of_exec_raise (execWriteOutput_full ha hfull)

/-- The errors of ReadInput: none while it blocks (41_dispatch_cycle.md R177), then its destination. -/
theorem raises_readInput_iff {s : State} {e : ErrorInfo} (hnone : s.fault = none) :
    Raises .readInput s e ↔ s.inq ≠ [] ∧ s.FirstFailure .readInput e := by
  cases hq : s.inq with
  | nil =>
    have hblock := execReadInput_empty hq
    simp [Raises, exec, hblock, hnone]
  | cons v rest =>
    simp only [ne_eq, reduceCtorEq, not_false_eq_true, true_and]
    constructor
    · rintro ⟨t, ht, hfault⟩
      rcases execReadInput_next hq ht with ⟨d, -, rfl⟩ | ⟨e', he, rfl⟩
      · simp [hnone] at hfault
      obtain rfl := raise_error_eq hfault
      exact ⟨0, by decide, nofun, he⟩
    · rintro ⟨k, hk, -, hfail⟩
      obtain rfl := Nat.lt_one_iff.1 hk
      exact .of_exec_raise (execReadInput_unresolved hq hfail)

/-- Halt has no parameter and no check. -/
theorem not_raises_halt {s : State} {e : ErrorInfo} (hnone : s.fault = none) : ¬ Raises .halt s e := by
  simp [Raises, exec, execHalt_eq, hnone]

/-- An instruction other than ReadInput raises its first parameter that does not resolve, or else the error of its
handler's own check. -/
theorem raises_iff_of_ne_readInput {s : State} {i : Instr} {e : ErrorInfo} (hnone : s.fault = none)
    (hi : i ≠ .readInput) :
    Raises i s e ↔ s.FirstFailure i e ∨ (s.AllResolve i ∧ s.HandlerRaises i e) := by
  cases i with
  | add ma mb | multiply ma mb =>
    exact (raises_iff_of_writeResult hnone rfl rfl rfl).trans (by simp only [Config.store_error]; rfl)
  | lessThan ma mb | equals ma mb =>
    exact (raises_iff_of_writeResult hnone rfl rfl rfl).trans (by simp [State.HandlerRaises])
  | jumpIfNonZero ma mb =>
    exact (raises_iff_of_jump hnone rfl rfl rfl).trans (by simp only [isNonZero_iff]; rfl)
  | jumpIfZero ma mb =>
    exact (raises_iff_of_jump hnone rfl rfl rfl).trans (by simp only [isZero_iff]; rfl)
  | writeOutput ma => exact raises_writeOutput_iff hnone
  | readInput => exact absurd rfl hi
  | halt => simp [not_raises_halt hnone, State.FirstFailure, State.HandlerRaises, Instr.params]

/-- Which error an instruction raises (60_exceptions.md R310, from the blocking check on). -/
theorem raises_iff {s : State} {i : Instr} {e : ErrorInfo} (hnone : s.fault = none) :
    Raises i s e ↔ ¬(i = .readInput ∧ s.inq = []) ∧
      (s.FirstFailure i e ∨ (s.AllResolve i ∧ s.HandlerRaises i e)) := by
  by_cases hi : i = .readInput
  · subst hi
    simp [raises_readInput_iff hnone, State.HandlerRaises]
  · simp [raises_iff_of_ne_readInput hnone hi, hi]

/-- Settles O11: `stepRaises_iff` for the fetch and the decoder, `raises_iff` for the instruction. -/
theorem stepRaisesExactlyFirstError : Obligations.StepRaisesExactlyFirstError := by
  intro s e hrunning hnone
  rw [stepRaises_iff (State.inRun_iff.2 ⟨hrunning, hnone⟩), State.fetchDecode_error]
  simp only [State.fetchDecode_ok, raises_iff hnone, State.StepError]
  constructor
  · rintro ((hfetch | ⟨w, hw, he⟩) | ⟨i, ⟨w, hw, hi⟩, he⟩)
    · exact .inl hfetch
    · exact .inr ⟨w, hw, .inl he⟩
    · exact .inr ⟨w, hw, .inr ⟨i, hi, he⟩⟩
  · rintro (hfetch | ⟨w, hw, he | ⟨i, hi, he⟩⟩)
    · exact .inl (.inl hfetch)
    · exact .inl (.inr ⟨w, hw, he⟩)
    · exact .inr ⟨i, ⟨w, hw, hi⟩, he⟩

end Sys2Proof.Machine

namespace Sys2Proof

/-! ### The canonical word (30_encoding.md R107) -/

theorem Mode.digit_le_one (m : Mode) : m.digit ≤ 1 := by cases m <;> decide

theorem digit_zero (n : Nat) : digit n 0 = n % 10 := by simp [digit]

theorem digit_succ (n k : Nat) : digit n (k + 1) = digit (n / 10) k := by
  simp only [digit, Nat.div_div_eq_div_mul, pow_succ']

/-- The digits of the number that a list of modes makes are the digits of the modes. -/
theorem digit_modeDigits {ms : List Mode} {k : Nat} {m : Mode} (h : ms[k]? = some m) :
    digit (modeDigits ms) k = m.digit := by
  induction ms generalizing k with
  | nil => simp at h
  | cons a ms ih =>
    have ha := a.digit_le_one
    cases k with
    | zero =>
      obtain rfl : a = m := by simpa using h
      rw [digit_zero, modeDigits]
      omega
    | succ k =>
      have htail : modeDigits (a :: ms) / 10 = modeDigits ms := by
        rw [modeDigits]
        omega
      rw [digit_succ, htail]
      exact ih (by simpa using h)

/-- It is the least number with those digits. -/
theorem modeDigits_le {ms : List Mode} {n : Nat} (h : ∀ k m, ms[k]? = some m → digit n k = m.digit) :
    modeDigits ms ≤ n := by
  induction ms generalizing n with
  | nil => exact Nat.zero_le n
  | cons a ms ih =>
    obtain ⟨hhead, htail⟩ := forall_getElem?_cons.1 h
    have hle := ih fun k m hk => (digit_succ n k).symm.trans (htail k m hk)
    rw [digit_zero] at hhead
    rw [modeDigits]
    omega

theorem Handler.opcode_lt (h : Handler) : h.row.opcode < 100 := by cases h <;> decide

theorem encodeWord_toNat (i : Instr) :
    (encodeWord i).toNat = i.handler.row.opcode + 100 * modeDigits i.modes :=
  Int.toNat_natCast _

/-- The canonical word of an instruction decodes to it. -/
theorem decode_encodeWord (i : Instr) : decode (encodeWord i) = .ok i := by
  have hop := i.handler.opcode_lt
  refine decode_ok_iff_digits.2 ⟨Int.natCast_nonneg _, ?_, fun k m hk => ?_⟩
  · rw [encodeWord_toNat]
    omega
  · have hflags : (encodeWord i).toNat / 100 = modeDigits i.modes := by
      rw [encodeWord_toNat]
      omega
    rw [← digit_flags, hflags, digit_modeDigits hk]

/-- No word below the canonical word of an instruction decodes to it: the opcode fixes the two low digits, and
the source modes the digits above them. -/
theorem encodeWord_le_of_decode {i : Instr} {w : Int} (h : decode w = .ok i) : encodeWord i ≤ w := by
  obtain ⟨hw, hop, hmodes⟩ := decode_ok_iff_digits.1 h
  have hle : modeDigits i.modes ≤ w.toNat / 100 :=
    modeDigits_le fun k m hk => (digit_flags w.toNat k).trans (hmodes k m hk)
  rw [encodeWord]
  omega

/-- Two source modes make a number of at most 11, on an opcode of at most 8. -/
theorem encodeWord_le (i : Instr) : encodeWord i ≤ 1108 := by
  cases i with
  | add ma mb | multiply ma mb | jumpIfNonZero ma mb | jumpIfZero ma mb | lessThan ma mb | equals ma mb =>
    have ha := ma.digit_le_one
    have hb := mb.digit_le_one
    rw [encodeWord_of_two_modes rfl]
    simp only [Instr.handler, Handler.row]
    omega
  | writeOutput ma =>
    have ha := ma.digit_le_one
    rw [Machine.encodeWord_writeOutput]
    omega
  | readInput | halt => decide

/-- Settles O8: `encodeWord_le`, `decode_encodeWord` and `encodeWord_le_of_decode`. -/
theorem canonicalWordIsLeast : Obligations.CanonicalWordIsLeast := by
  intro i
  exact ⟨⟨encodeWord_le i, decode_encodeWord i⟩, fun w => encodeWord_le_of_decode⟩

/-- Decoding an instruction laid out with the parameter cells of its format, whatever stands after it. -/
theorem decodeCells_encode {i : Instr} {ps : List Int} (h : ps.length = i.params) (rest : List Int) :
    decodeCells (encode i ps ++ rest) = .ok (i, ps, rest) := by
  simp [encode, decodeCells, decode_encodeWord, ← h]

/-- Settles O7: `decodeCells_encode`; that the cells are Words plays no part. -/
theorem decodeOfEncode : Obligations.DecodeOfEncode := by
  intro c i ps rest hwf
  simp only [Instr.wf, Bool.and_eq_true, decide_eq_true_eq] at hwf
  exact decodeCells_encode hwf.1 rest

/-! ### The words and the table of the manual -/

/-- Settles O1: thirteen words, each decoded. -/
theorem specWordsDecode : Obligations.SpecWordsDecode := by
  unfold Obligations.SpecWordsDecode
  decide

/-- Settles O2: the table row by row, and `romLookup_eq_none` for every other opcode. -/
theorem dispatchRomContents : Obligations.DispatchRomContents :=
  ⟨rfl, fun _ => romLookup_eq_none⟩

/-! ### The three cases of `Store` (42_arithmetic.md R200) -/

/-- Under wrap, a result that does not fit is stored as a Word that is congruent to it, the only such Word. -/
theorem Config.store_wrap_unique {c : Config} {n : Nat} {r : Int} (hl : c.legal = true)
    (hn : c.wordBits = some n) (hr : c.fits r = false) (hwrap : c.overflow = .wrap) :
    ∃ v, c.store r = .ok v ∧ c.fits v = true ∧ v % ((2 ^ n : Nat) : Int) = r % ((2 ^ n : Nat) : Int) ∧
      ∀ u, c.fits u = true → u % ((2 ^ n : Nat) : Int) = r % ((2 ^ n : Nat) : Int) → u = v := by
  have hwidth : 1 ≤ n := (by decide : 1 ≤ 16).trans (c.legal_width hl hn)
  have hstore := Config.store_wrap hr hwrap hn
  obtain ⟨-, -, hmod⟩ := wrapWord_spec hwidth r
  refine ⟨wrapWord n r, hstore, c.store_fits hl hstore, hmod, fun u hu hcongr => ?_⟩
  obtain ⟨hlo, hhi⟩ := (c.fits_iff hn).1 hu
  exact (wrapWord_eq_of_congruent hwidth hlo hhi hcongr).symm

/-- Settles O21: one lemma for each case. -/
theorem storeLaw : Obligations.StoreLaw := by
  intro c r hl
  exact ⟨fun hw => c.fits_unbounded hw r, fun n hn => c.fits_iff hn, Config.store_of_fits, Config.store_trap,
    fun n hn hr hwrap => Config.store_wrap_unique hl hn hr hwrap⟩

/-! ### The codes of the errors (60_exceptions.md R300) -/

/-- The error that a code and a detail stand for. -/
def ErrorInfo.ofCodeDetail : Nat → List Int → Option ErrorInfo
  | 1, [n] => some (.invalidProgramText n.toNat)
  | 2, [w] => some (.unknownOpcode w)
  | 3, [a] => some (.memoryOutOfBounds a)
  | 4, [] => some .emptyOutputRead
  | 5, [k, w] => some (.invalidAddressingMode k.toNat w)
  | 6, [r] => some (.arithmeticOverflow r)
  | 7, [v] => some (.fifoOverflow v)
  | _, _ => none

/-- Code and detail lose nothing of an error. -/
theorem ErrorInfo.ofCodeDetail_code_detail (e : ErrorInfo) : ofCodeDetail e.code e.detail = some e := by
  cases e <;> rfl

theorem ErrorInfo.eq_of_code_detail {e e' : ErrorInfo} (hcode : e.code = e'.code)
    (hdetail : e.detail = e'.detail) : e = e' := by
  have h := e.ofCodeDetail_code_detail
  rw [hcode, hdetail, e'.ofCodeDetail_code_detail] at h
  exact (Option.some.inj h).symm

end Sys2Proof

namespace Sys2Proof.Machine

/-- Code 0 is the code of no error. -/
theorem State.faultCode_eq_zero {s : State} : s.faultCode = 0 ↔ s.fault = none := by
  cases hf : s.fault with
  | none => simp [State.faultCode, hf]
  | some f =>
    have hcode := Nat.one_le_iff_ne_zero.1 (errorInfo_code_range f.error).1
    simpa [State.faultCode, hf] using hcode

/-- Settles O56: `State.faultCode_eq_zero`, the table, and `ErrorInfo.eq_of_code_detail`. -/
theorem errorAndStateCodes : Obligations.ErrorAndStateCodes := by
  refine ⟨fun s => ⟨State.faultCode_eq_zero, fun f hf => ⟨by simp [State.faultCode, hf], rfl⟩⟩, ?_,
    fun e e' => ErrorInfo.eq_of_code_detail, rfl, rfl, rfl, rfl⟩
  intro n w a k r v
  exact ⟨rfl, rfl, rfl, rfl, rfl, rfl, rfl, rfl, rfl, rfl, rfl, rfl, rfl, rfl⟩

end Sys2Proof.Machine

namespace Sys2Proof.Machine

/-! ### The text of a number (30_encoding.md R114) -/

theorem digitChar_toNat {d : Nat} (h : d < 10) : (digitChar d).toNat = 48 + d := by
  interval_cases d <;> rfl

theorem isDigitChar_digitChar {d : Nat} (h : d < 10) : isDigitChar (digitChar d) = true := by
  simp only [isDigitChar, digitChar_toNat h, Bool.and_eq_true, decide_eq_true_eq]
  omega

/-- Digits put before digits. -/
theorem natTextGo_all_isDigitChar {acc : Text} (fuel n : Nat) (h : acc.all isDigitChar = true) :
    (natTextGo fuel n acc).all isDigitChar = true := by
  induction fuel generalizing n acc with
  | zero => exact h
  | succ fuel ih =>
    rw [natTextGo]
    split
    next hn => simp [isDigitChar_digitChar hn, h]
    next => exact ih _ (by simp [isDigitChar_digitChar (Nat.mod_lt n (by decide : 0 < 10)), h])

/-- With fuel for every digit, reading the text from 0 is reading what follows the digits from the number that
they make. -/
theorem natTextGo_foldl {fuel n : Nat} (acc : Text) (h : n < 10 ^ fuel) :
    (natTextGo fuel n acc).foldl (fun n c => 10 * n + (c.toNat - 48)) 0 =
      acc.foldl (fun n c => 10 * n + (c.toNat - 48)) n := by
  induction fuel generalizing n acc with
  | zero =>
    obtain rfl : n = 0 := by simpa using h
    rfl
  | succ fuel ih =>
    rw [natTextGo]
    split
    next hn => simp [digitChar_toNat hn]
    next =>
      have hdiv : n / 10 < 10 ^ fuel := Nat.div_lt_of_lt_mul (by rwa [pow_succ'] at h)
      rw [ih _ hdiv, List.foldl_cons, digitChar_toNat (Nat.mod_lt n (by decide)), Nat.add_sub_cancel_left,
        Nat.div_add_mod]

theorem natTextGo_ne_nil {acc : Text} (fuel n : Nat) (h : fuel ≠ 0 ∨ acc ≠ []) : natTextGo fuel n acc ≠ [] := by
  induction fuel generalizing n acc with
  | zero => simpa [natTextGo] using h
  | succ fuel ih =>
    rw [natTextGo]
    split
    next => exact List.cons_ne_nil _ _
    next => exact ih _ (.inr (List.cons_ne_nil _ _))

theorem natText_all_isDigitChar (n : Nat) : (natText n).all isDigitChar = true :=
  natTextGo_all_isDigitChar _ _ rfl

theorem natText_ne_nil (n : Nat) : natText n ≠ [] := natTextGo_ne_nil _ _ (.inl (Nat.succ_ne_zero _))

/-- A number has at most as many decimal digits as binary ones. -/
theorem natText_foldl (n : Nat) : (natText n).foldl (fun n c => 10 * n + (c.toNat - 48)) 0 = n :=
  natTextGo_foldl [] (Nat.lt_log2_self.trans_le (Nat.pow_le_pow_left (by decide) _))

theorem intText_eq (v : Int) : intText v = (if decide (v < 0) then ['-'] else []) ++ natText v.natAbs := by
  by_cases hv : v < 0 <;> simp [intText, hv]

/-- The text of an integer is a token of the grammar with that integer as its value, in every configuration. -/
theorem tokenHasValue_intText (c : Config) (v : Int) : TokenHasValue c (intText v) v := by
  refine ⟨[], [], natText v.natAbs, decide (v < 0), by simp [intText_eq], rfl, rfl, fun _ => ⟨rfl, rfl⟩,
    natText_ne_nil _, natText_all_isDigitChar _, ?_⟩
  rw [natText_foldl]
  by_cases hv : v < 0
  · simp only [hv, decide_true, if_true]
    omega
  · simp only [hv, decide_false, Bool.false_eq_true, if_false]
    omega

theorem isDigitChar_comma : isDigitChar ',' = false := by decide

/-- No number's text holds the separator of a program text. -/
theorem comma_notMem_intText (v : Int) : ',' ∉ intText v := by
  intro h
  rw [intText_eq, List.mem_append] at h
  rcases h with hsign | hdigits
  · by_cases hv : v < 0 <;> simp [hv] at hsign
  · have hdigit := List.all_eq_true.1 (natText_all_isDigitChar _) _ hdigits
    rw [isDigitChar_comma] at hdigit
    cases hdigit

/-! ### The pieces of a joined text -/

/-- A text without separators goes whole to the first piece. -/
theorem splitAtEvery_append {c : Char} {t u p : Text} {ps : List Text} (h : c ∉ t)
    (hu : splitAtEvery c u = p :: ps) : splitAtEvery c (t ++ u) = (t ++ p) :: ps := by
  induction t with
  | nil => exact hu
  | cons d t ih =>
    obtain ⟨hd, ht⟩ := not_or.1 (mt List.mem_cons.2 h)
    obtain ⟨q, qs, hq, hcons⟩ := splitAtEvery_cons_other (Ne.symm hd) (t ++ u)
    obtain ⟨rfl, rfl⟩ := List.cons.inj (hq.symm.trans (ih ht))
    exact hcons

/-- Splitting at the separator undoes joining, for pieces that hold none. -/
theorem splitAtEvery_joinWith {c : Char} {ts : List Text} (hne : ts ≠ []) (h : ∀ t ∈ ts, c ∉ t) :
    splitAtEvery c (joinWith [c] ts) = ts := by
  induction ts with
  | nil => exact absurd rfl hne
  | cons t ts ih =>
    obtain ⟨ht, hts⟩ := List.forall_mem_cons.1 h
    by_cases hnil : ts = []
    · subst hnil
      simpa [joinWith] using splitAtEvery_append (u := []) ht rfl
    · have hrest := splitAtEvery_append ht (splitAtEvery_cons_self c (joinWith [c] ts))
      rw [joinWith_cons t hnil, List.append_assoc, List.singleton_append, hrest, List.append_nil, ih hnil hts]

/-! ### The image of a text -/

/-- The tokens of a program text are the texts of the cells. -/
theorem splitAtEvery_programText {img : List Int} (hne : img ≠ []) :
    splitAtEvery ',' (programText img) = img.map intText :=
  splitAtEvery_joinWith (by simpa using hne) (List.forall_mem_map.2 fun v _ => comma_notMem_intText v)

/-- What is loaded is what is parsed, when MEM_MAX has room for it (40_host_interface.md R133). -/
theorem loadProgram_ok {c : Config} {txt : Text} {img : List Int} :
    loadProgram c txt = .ok img ↔ parseProgram c txt = .ok img ∧ withinCap c.memMax img.length = true := by
  unfold loadProgram
  cases parseProgram c txt with
  | error e => simp
  | ok cells =>
    simp only [Except.ok.injEq]
    split
    next hcap => exact ⟨fun h => by cases h; exact ⟨rfl, hcap⟩, fun h => congrArg Except.ok h.1⟩
    next hcap => exact ⟨nofun, fun ⟨hcells, h⟩ => absurd (hcells ▸ h) hcap⟩

/-- The cells of a text that is parsed are the values of its tokens in order (R134). -/
theorem parseProgram_ok_iff_forall₂ {c : Config} {txt : Text} {img : List Int} :
    parseProgram c txt = .ok img ↔
      List.Forall₂ (fun tok v => TokenHasValue c tok v ∧ c.fits v = true) (splitAtEvery ',' txt) img := by
  obtain ⟨-, -, -, h⟩ := programTextGrammar c txt img
  exact h

theorem parseProgram_length {c : Config} {txt : Text} {img : List Int} (h : parseProgram c txt = .ok img) :
    img.length = txt.count ',' + 1 := by
  rw [← (parseProgram_ok_iff_forall₂.1 h).length_eq, splitAtEvery_length]

/-- A text that loads gives a program image. -/
theorem imageWf_of_loadProgram {c : Config} {txt : Text} {img : List Int} (h : loadProgram c txt = .ok img) :
    imageWf c img = true := by
  obtain ⟨hparse, hcap⟩ := loadProgram_ok.1 h
  have hlen := parseProgram_length hparse
  have hwords := (parseProgram_ok_iff_forall₂.1 hparse).imp fun _ _ => And.symm
  obtain ⟨hfits, -⟩ := (List.forall₂_and_left img _).1 hwords.flip
  have hne : img ≠ [] := List.ne_nil_of_length_pos (by omega)
  simpa [imageWf, hne, hcap] using hfits

/-- Settles O53: the tokens are the texts of the cells by `splitAtEvery_programText`, and each has its cell for
value by `tokenHasValue_intText`. -/
theorem programTextRoundTrip : Obligations.ProgramTextRoundTrip := by
  intro c img hwf
  simp only [imageWf, Bool.and_eq_true, Bool.not_eq_true', List.isEmpty_eq_false_iff, List.all_eq_true] at hwf
  obtain ⟨⟨hne, hcap⟩, hfits⟩ := hwf
  refine loadProgram_ok.2 ⟨parseProgram_ok_iff_forall₂.2 ?_, hcap⟩
  rw [splitAtEvery_programText hne, List.forall₂_map_left_iff, List.forall₂_same]
  exact fun v hv => ⟨tokenHasValue_intText c v, hfits v hv⟩

/-! ### The texts that do not load (60_exceptions.md R301) -/

theorem tokenGood_iff {c : Config} {t : Text} : TokenGood c t ↔ ∃ v, tokenValue c t = some v := by
  simp only [TokenGood, tokenValue_eq_some]

/-- The parser of the tokens refuses exactly the first bad one, whatever index it counts from. -/
theorem tokenValues_error {c : Config} {k n : Nat} {toks : List Text} :
    tokenValues c k toks = .error n ↔
      ∃ j, n = k + j ∧ ∃ tok, toks[j]? = some tok ∧ ¬ TokenGood c tok ∧
        ∀ tok' ∈ toks.take j, TokenGood c tok' := by
  induction toks generalizing k with
  | nil => simp [tokenValues]
  | cons tok toks ih =>
    rw [← Nat.or_exists_add_one]
    cases hval : tokenValue c tok with
    | none =>
      have hbad : ¬ TokenGood c tok := by simp [tokenGood_iff, hval]
      simp [tokenValues, hval, hbad, eq_comm]
    | some v =>
      have hgood : TokenGood c tok := tokenGood_iff.2 ⟨v, hval⟩
      have hcons : tokenValues c k (tok :: toks) = .error n ↔ tokenValues c (k + 1) toks = .error n := by
        simp only [tokenValues, hval]
        cases tokenValues c (k + 1) toks <;> simp
      simp [hcons, ih, hgood, Nat.add_assoc, Nat.add_comm 1]

end Sys2Proof.Machine

namespace Sys2Proof.Machine

theorem parseProgram_error {c : Config} {txt : Text} {e : ErrorInfo} :
    parseProgram c txt = .error e ↔
      ∃ n, e = .invalidProgramText n ∧ tokenValues c 0 (splitAtEvery ',' txt) = .error n := by
  unfold parseProgram
  cases tokenValues c 0 (splitAtEvery ',' txt) <;> simp [eq_comm]

/-- A text is parsed when every token is good, and only then. -/
theorem exists_parseProgram_ok {c : Config} {txt : Text} :
    (∃ img, parseProgram c txt = .ok img) ↔ ∀ tok ∈ splitAtEvery ',' txt, TokenGood c tok := by
  constructor
  · rintro ⟨img, h⟩
    have hgood := (parseProgram_ok_iff_forall₂.1 h).imp fun tok v hv =>
      (⟨⟨v, hv⟩, hv⟩ : TokenGood c tok ∧ _)
    exact ((List.forall₂_and_left _ img).1 hgood).1
  · intro hgood
    cases h : parseProgram c txt with
    | ok img => exact ⟨img, rfl⟩
    | error e =>
      obtain ⟨n, -, hn⟩ := parseProgram_error.1 h
      obtain ⟨j, -, tok, htok, hbad, -⟩ := tokenValues_error.1 hn
      exact absurd (hgood tok (List.mem_of_getElem? htok)) hbad

theorem withinCap_eq_false {cap : Option Nat} {n : Nat} :
    withinCap cap n = false ↔ ∃ m, cap = some m ∧ m < n := by
  cases cap <;> simp [withinCap]

/-- All that loading a text can raise. -/
theorem loadProgram_error {c : Config} {txt : Text} {e : ErrorInfo} :
    loadProgram c txt = .error e ↔ parseProgram c txt = .error e ∨
      ∃ img, parseProgram c txt = .ok img ∧ withinCap c.memMax img.length = false ∧
        e = .invalidProgramText img.length := by
  unfold loadProgram
  cases parseProgram c txt with
  | error e' => simp
  | ok img => cases hcap : withinCap c.memMax img.length <;> simp [hcap, eq_comm (a := e)]

/-- Loading a text raises no error but InvalidProgramText. -/
theorem invalidProgramText_of_loadProgram {c : Config} {txt : Text} {e : ErrorInfo}
    (h : loadProgram c txt = .error e) : ∃ n, e = .invalidProgramText n := by
  rcases loadProgram_error.1 h with hparse | ⟨img, -, -, he⟩
  · obtain ⟨n, he, -⟩ := parseProgram_error.1 hparse
    exact ⟨n, he⟩
  · exact ⟨img.length, he⟩

/-- The detail of InvalidProgramText: the index of the first bad token, or the count of the cells that MEM_MAX has
no room for (60_exceptions.md R300). -/
theorem loadProgram_invalidProgramText {c : Config} {txt : Text} {n : Nat} :
    loadProgram c txt = .error (.invalidProgramText n) ↔
      (∃ tok, (splitAtEvery ',' txt)[n]? = some tok ∧ ¬ TokenGood c tok ∧
        ∀ tok' ∈ (splitAtEvery ',' txt).take n, TokenGood c tok') ∨
      ((∀ tok ∈ splitAtEvery ',' txt, TokenGood c tok) ∧ n = txt.count ',' + 1 ∧
        ∃ m, c.memMax = some m ∧ m < n) := by
  rw [loadProgram_error, ← exists_parseProgram_ok]
  refine or_congr ?_ ⟨?_, ?_⟩
  · simp [parseProgram_error, tokenValues_error]
  · rintro ⟨img, himg, hcap, hn⟩
    obtain rfl := ErrorInfo.invalidProgramText.inj hn
    exact ⟨⟨img, himg⟩, parseProgram_length himg, withinCap_eq_false.1 hcap⟩
  · rintro ⟨⟨img, himg⟩, rfl, hcap⟩
    rw [← parseProgram_length himg] at hcap ⊢
    exact ⟨img, himg, withinCap_eq_false.2 hcap, rfl⟩

theorem State.construct_error {s : State} {txt : Text} {e : ErrorInfo} (h : loadProgram s.cfg txt = .error e) :
    s.construct txt = s.respond (.error ⟨e, none⟩) := by
  simp [State.construct, h]

/-- Construct of a text that does not load is answered with the error, and nothing else happens. -/
theorem step_construct_error {s : State} {txt : Text} {rest : List Command} {e : ErrorInfo}
    (hr : s.inRun = false) (hc : s.cmds = .construct txt :: rest) (h : loadProgram s.cfg txt = .error e) :
    step s = .next (s.answered rest (.error ⟨e, none⟩)) := by
  have hload : ({ s with cmds := rest } : State).construct txt = _ := State.construct_error h
  exact (step_command hr hc).trans (congrArg Host.Outcome.next hload)

/-- Settles O40: the count of the cells by `parseProgram_length`, the step by `step_construct_ok`. -/
theorem constructLoadsProgram : Obligations.ConstructLoadsProgram := by
  intro s txt rest img hr hc h
  exact ⟨parseProgram_length (loadProgram_ok.1 h).1, step_construct_ok hr hc h⟩

/-- Settles O41: `loadProgram_invalidProgramText` and `step_construct_error`. -/
theorem constructRejectsBadText : Obligations.ConstructRejectsBadText := by
  intro s txt rest hr hc
  exact ⟨fun n => loadProgram_invalidProgramText,
    fun e he => ⟨invalidProgramText_of_loadProgram he, step_construct_error hr hc he⟩⟩

end Sys2Proof.Machine

namespace Sys2Proof.Machine

/-! ### What an instruction does when it raises nothing -/

/-- The states that instruction `i` can leave `s` in with no fault recorded. -/
inductive State.Effect (s : State) : Instr → State → Prop
  /-- A storing instruction writes its destination. -/
  | stores {i : Instr} {d v : Int} (h : s.Stores i d v) :
    s.Effect i { s with
      mem := Memory.write s.mem d v
      inq := if i = .readInput then s.inq.tail else s.inq
      pc := s.pc + i.handler.row.adv }
  /-- ReadInput blocks. -/
  | blocks (h : s.inq = []) : s.Effect .readInput (s.setState .blockedOnInput)
  /-- WriteOutput pushes its operand. -/
  | pushes {ma : Mode} {a : Int} (ha : s.OperandIs 0 ma a) (hroom : s.cfg.outDepth ≠ some s.outq.length) :
    s.Effect (.writeOutput ma) { s with outq := s.outq ++ [a], pc := s.pc + 2 }
  /-- A jump, taken or not, sets PC alone, to a value in [0, N]. -/
  | jumps {i : Instr} {n : Nat} (hi : i.params = 2) (hn : n ≤ s.mem.length) : s.Effect i { s with pc := n }
  /-- Halt. -/
  | halts : s.Effect .halt { s with state := .halted, pc := s.pc + s.cfg.haltPcAdvance.val }

theorem State.Effect.of_stores {s t : State} {i : Instr} {d v : Int} (h : s.Stores i d v)
    (ht : exec i s = .next t) : s.Effect i t := by
  cases (exec_of_stores h).symm.trans ht
  exact .stores h

/-- PC stays in [0, N] at a jump: the target of a taken one is checked, and one that is not taken has its second
parameter in memory (44_jumps.md R242). -/
theorem State.Effect.of_jump {s t : State} {i : Instr} {h : Handler} {ma mb : Mode} {taken : Int → Bool}
    (hi : i.params = 2) (hlen : h.row.len = 3) (hadv : h.row.adv = 0) (ht : s.jump h ma mb taken = .next t)
    (hf : t.fault = none) : s.Effect i t := by
  rcases State.jump_next ht with ⟨a, b, -, -, -, hb, rfl⟩ | ⟨a, b, -, hb, -, rfl⟩ | ⟨e, rfl, -⟩
  · exact .jumps hi (by omega)
  · obtain ⟨p, hp⟩ := hb.param
    have hlt := hp.lt
    exact .jumps hi (by omega)
  · cases hf

/-- An instruction after which no fault is recorded had one of these effects. -/
theorem exec_effect {i : Instr} {s t : State} (ht : exec i s = .next t) (hf : t.fault = none) :
    s.Effect i t := by
  cases i with
  | add ma mb | multiply ma mb =>
    rcases State.writeResult_next ht with ⟨a, b, d, v, ha, hb, hd, hv, -⟩ | ⟨e, rfl, -⟩
    · exact .of_stores ⟨hd, a, b, ha, hb, hv⟩ ht
    · cases hf
  | lessThan ma mb | equals ma mb =>
    rcases State.writeResult_next ht with ⟨a, b, d, v, ha, hb, hd, hv, -⟩ | ⟨e, rfl, -⟩
    · exact .of_stores ⟨hd, a, b, ha, hb, by simpa [truthWord] using hv.symm⟩ ht
    · cases hf
  | jumpIfNonZero ma mb | jumpIfZero ma mb => exact .of_jump rfl rfl rfl ht hf
  | writeOutput ma =>
    rcases execWriteOutput_next ht with ⟨a, ha, hroom, rfl⟩ | ⟨e, rfl, -⟩
    · exact .pushes ha (mt atCap_iff.2 (by simp [hroom]))
    · cases hf
  | readInput =>
    cases hq : s.inq with
    | nil =>
      cases (execReadInput_empty hq).symm.trans ht
      exact .blocks hq
    | cons v rest =>
      rcases execReadInput_next hq ht with ⟨d, hd, -⟩ | ⟨e, -, rfl⟩
      · exact .of_stores (v := v) ⟨hd, by simp [hq]⟩ ht
      · cases hf
  | halt =>
    cases (execHalt_eq s).symm.trans ht
    exact .halts

/-- Only ReadInput changes the input FIFO, and it takes the head. -/
theorem State.Effect.inq {s t : State} {i : Instr} (h : s.Effect i t) :
    t.inq = s.inq ∨ (i = .readInput ∧ ∃ v, s.inq = v :: t.inq) := by
  cases h with
  | @stores _ d v hst =>
    by_cases hi : i = .readInput
    · subst hi
      obtain ⟨-, hv⟩ := hst
      obtain ⟨rest, hq⟩ := List.head?_eq_some_iff.1 hv
      exact .inr ⟨rfl, v, by simp [hq]⟩
    · exact .inl (if_neg hi)
  | blocks | pushes | jumps | halts => exact .inl rfl

/-- Only WriteOutput changes the output FIFO, and it appends one Word. -/
theorem State.Effect.outq {s t : State} {i : Instr} (h : s.Effect i t) :
    t.outq = s.outq ∨ ∃ ma v, i = .writeOutput ma ∧ t.outq = s.outq ++ [v] := by
  cases h with
  | pushes => exact .inr ⟨_, _, rfl, rfl⟩
  | stores | blocks | jumps | halts => exact .inl rfl

/-! ### Frames -/

/-- Settles O22: all four are of the shape `writeResult`, with an advance of 4. -/
theorem fourCellFrame : Obligations.FourCellFrame := by
  intro s t i ma mb hi ht _ hf
  obtain ⟨h, f, hexec, hadv⟩ : ∃ h f, exec i s = s.writeResult h ma mb f ∧ h.row.adv = 4 := by
    rcases hi with rfl | rfl | rfl | rfl <;> exact ⟨_, _, rfl, rfl⟩
  rcases State.writeResult_next (hexec.symm.trans ht) with ⟨a, b, d, v, -, -, hd, -, rfl⟩ | ⟨e, rfl, -⟩
  · refine ⟨⟨d, hd⟩, fun d' hd' a' hne => ?_, Memory.write_length _ _ _, by simp [hadv], rfl, rfl, rfl, rfl, rfl,
      rfl, rfl⟩
    obtain rfl := hd'.unique hd
    exact Memory.read_write_other v hne
  · cases hf

/-- Settles O23: such an instruction stores nothing, so memory is as it was by `exec_mem`; the FIFOs by
`exec_effect`, the execution state by `exec_state`, and the rest by `exec_keeps`. -/
theorem nonStoringFrame : Obligations.NonStoringFrame := by
  intro s t i ma mb hi ht _ hf
  have hstores : ∀ d v, ¬ s.Stores i d v := by rcases hi with rfl | rfl | rfl | rfl <;> exact fun _ _ => id
  have hread : i ≠ .readInput := by rcases hi with rfl | rfl | rfl | rfl <;> exact nofun
  have hwrite : ∀ m, i = .writeOutput m → i = .writeOutput ma := by rcases hi with rfl | rfl | rfl | rfl <;> simp
  obtain ⟨hcfg, himage, hcmds, hresps, hlen⟩ := exec_keeps ht
  have heff := exec_effect ht hf
  have hmem : t.mem = s.mem := (exec_mem ht).resolve_right fun ⟨d, v, h, _⟩ => hstores d v h
  have hinq : t.inq = s.inq := heff.inq.resolve_right fun h => hread h.1
  refine ⟨fun a => by rw [hmem], hlen, hinq, himage, hcfg, hcmds, hresps, fun hne => ?_, fun hne => ?_⟩
  · exact heff.outq.resolve_right fun ⟨m, v, hm, _⟩ => hne (hwrite m hm)
  · rcases exec_state ht with hsame | ⟨hi', -⟩ | ⟨hi', -⟩
    · exact hsame
    · exact absurd hi' hread
    · exact absurd hi' hne

/-- Settles O24: by whether the input FIFO is empty (41_dispatch_cycle.md R177). -/
theorem readInputFrame : Obligations.ReadInputFrame := by
  intro s t ht _ hf
  cases hq : s.inq with
  | nil =>
    cases (execReadInput_empty hq).symm.trans ht
    exact ⟨rfl, rfl, rfl, rfl, rfl, rfl, fun _ => ⟨rfl, hq, rfl⟩, fun h => absurd rfl h⟩
  | cons v rest =>
    rcases execReadInput_next hq ht with ⟨d, hd, rfl⟩ | ⟨e, -, rfl⟩
    · refine ⟨rfl, rfl, rfl, rfl, rfl, Memory.write_length _ _ _, nofun,
        fun _ => ⟨rfl, rfl, rfl, ⟨d, hd⟩, fun d' hd' a hne => ?_⟩⟩
      obtain rfl := hd'.unique hd
      exact Memory.read_write_other v hne
    · cases hf

/-! ### Memory (20_memory.md R63, R76, R77) -/

/-- Settles O25: `MemRead` and `MemWrite` by their address, and what memory reads after a write. -/
theorem accessesAreBoundChecked : Obligations.AccessesAreBoundChecked := by
  intro s a v
  refine ⟨fun hout => ⟨?_, State.memWrite_error.2 ⟨hout, rfl⟩⟩, fun hin => ⟨?_, ?_⟩⟩
  · exact State.memRead_error.2 ⟨Memory.read_eq_none.2 hout, rfl⟩
  · obtain ⟨x, hx⟩ := Option.ne_none_iff_exists'.1 (mt Memory.read_eq_none.1 (not_not.2 hin))
    exact ⟨x, (Memory.read_eq_some.1 hx).2.2, State.memRead_ok.2 hx⟩
  · refine ⟨_, State.memWrite_ok.2 ⟨hin, rfl⟩, State.memRead_ok.2 (Memory.read_write_same v hin),
      fun b hb => ?_, rfl⟩
    simp only [State.memRead, Memory.read_write_other v hb]

/-- The decoder reads the Word at the PC. -/
theorem State.fetchDecode_of_read {s : State} {w : Int} (h : Memory.read s.mem (s.pc : Int) = some w) :
    s.fetchDecode = decode w := by
  rw [State.fetchDecode, State.memRead_ok.2 h]
  rfl

/-- Settles O26: `exec_of_stores`; a fetch and a parameter read of the destination are reads of what was written. -/
theorem writtenWordIsFetchedNext : Obligations.WrittenWordIsFetchedNext := by
  intro s i d v h
  obtain ⟨t, ht, hpc, hread⟩ : ∃ t, exec i s = .next t ∧ t.pc = s.pc + i.handler.row.adv ∧
      Memory.read t.mem d = some v := ⟨_, exec_of_stores h, rfl, Memory.read_write_same v h.inRange⟩
  refine ⟨t, ht, hpc, hread, fun hd => State.fetchDecode_of_read (hd ▸ hread), fun k hd => ?_⟩
  rwa [State.ParamIs, ← hd]

end Sys2Proof.Machine

namespace Sys2Proof.Machine

/-! ### What an accepted command does -/

/-- The states that the block can leave `s` in when it accepts the command `c`. -/
inductive State.Accepts (s : State) : Command → State → Prop
  /-- Construct of a text that loads. -/
  | constructs {txt : Text} {img : List Int} (h : loadProgram s.cfg txt = .ok img) :
    s.Accepts (.construct txt) ((s.load img).respond .constructed)
  /-- Reboot. -/
  | reboots : s.Accepts .reboot (s.reboot.respond .done)
  /-- Input with room in the input FIFO. -/
  | pushes {v : Int} (h : s.cfg.inDepth ≠ some s.inq.length) :
    s.Accepts (.input v) ((s.inPush v).respond .done)
  /-- Output of an entry. -/
  | pops {v : Int} {q : List Int} (h : s.outq = v :: q) :
    s.Accepts .output (({ s with outq := q } : State).respond (.word v))
  /-- WriteMemory inside [0, N). -/
  | writes {a v : Int} :
    s.Accepts (.writeMemory a v) (({ s with mem := Memory.write s.mem a v } : State).respond .done)
  /-- Run. -/
  | runs : s.Accepts .run (s.setState .running)
  /-- A command that is answered and changes nothing: an accessor, or a Construct that fails. -/
  | answers {c : Command} {r : Response} : s.Accepts c (s.respond r)
  /-- A command that raises. -/
  | raises {c : Command} {e : ErrorInfo} (hc : ∀ txt, c ≠ .construct txt)
    (he : ∀ n, e ≠ .invalidProgramText n) : s.Accepts c (s.raiseCommand e)

/-- Accepting a command is one of these. -/
theorem State.accepts_accept (s : State) (c : Command) : s.Accepts c (s.accept c) := by
  cases c with
  | construct txt =>
    cases h : loadProgram s.cfg txt with
    | ok img =>
      rw [State.accept, State.construct_ok h]
      exact .constructs h
    | error e =>
      rw [State.accept, State.construct_error h]
      exact .answers
  | reboot => exact .reboots
  | input v =>
    rw [State.accept]
    by_cases h : s.cfg.inDepth = some s.inq.length
    · rw [State.input_full v h]
      exact .raises nofun nofun
    · rw [State.input_not_full v h]
      exact .pushes h
  | output =>
    rw [State.accept]
    cases h : s.outq with
    | nil =>
      rw [State.output_empty h]
      exact .raises nofun nofun
    | cons v q =>
      rw [State.output_cons h]
      exact .pops h
  | readMemory a =>
    rw [State.accept]
    cases h : Memory.read s.mem a with
    | none =>
      rw [State.readMemory_outside (Memory.read_eq_none.1 h)]
      exact .raises nofun nofun
    | some v =>
      rw [State.readMemory_cell h]
      exact .answers
  | writeMemory a v =>
    rw [State.accept]
    by_cases h : 0 ≤ a ∧ a < (s.mem.length : Int)
    · rw [State.writeMemory_inside v h]
      exact .writes
    · rw [State.writeMemory_outside v h]
      exact .raises nofun nofun
  | run => exact .runs
  | peekOutput | currentState | debugDump => exact .answers

section
variable {s t : State} {c : Command} (h : s.Accepts c t)
include h

theorem State.Accepts.cfg : t.cfg = s.cfg := by cases h <;> rfl

/-- Construct alone writes the image. -/
theorem State.Accepts.image :
    t.image = s.image ∨ ∃ txt, c = .construct txt ∧ loadProgram s.cfg txt = .ok t.image := by
  cases h with
  | constructs hload => exact .inr ⟨_, rfl, hload⟩
  | reboots | pushes | pops | writes | runs | answers | raises => exact .inl rfl

/-- Reboot and Construct alone write PC. -/
theorem State.Accepts.pc : t.pc = s.pc ∨ (t.pc = 0 ∧ (c = .reboot ∨ ∃ txt, c = .construct txt)) := by
  cases h with
  | constructs => exact .inr ⟨rfl, .inr ⟨_, rfl⟩⟩
  | reboots => exact .inr ⟨rfl, .inl rfl⟩
  | pushes | pops | writes | runs | answers | raises => exact .inl rfl

/-- Input appends to the input FIFO, and Reboot and Construct empty it. -/
theorem State.Accepts.inq :
    t.inq = s.inq ∨ (∃ v, c = .input v ∧ t.inq = s.inq ++ [v]) ∨
      (t.inq = [] ∧ (c = .reboot ∨ ∃ txt, c = .construct txt)) := by
  cases h with
  | constructs => exact .inr (.inr ⟨rfl, .inr ⟨_, rfl⟩⟩)
  | reboots => exact .inr (.inr ⟨rfl, .inl rfl⟩)
  | pushes => exact .inr (.inl ⟨_, rfl, rfl⟩)
  | pops | writes | runs | answers | raises => exact .inl rfl

/-- Output takes the head of the output FIFO, and Reboot and Construct empty it. -/
theorem State.Accepts.outq :
    t.outq = s.outq ∨ (c = .output ∧ ∃ v, s.outq = v :: t.outq) ∨
      (t.outq = [] ∧ (c = .reboot ∨ ∃ txt, c = .construct txt)) := by
  cases h with
  | constructs => exact .inr (.inr ⟨rfl, .inr ⟨_, rfl⟩⟩)
  | reboots => exact .inr (.inr ⟨rfl, .inl rfl⟩)
  | pops hq => exact .inr (.inl ⟨rfl, _, hq⟩)
  | pushes | writes | runs | answers | raises => exact .inl rfl

end

/-! ### What a step does -/

@[simp] theorem State.endCycle_pc (s : State) : s.endCycle.pc = s.pc := by
  obtain ⟨rs, h⟩ := s.endCycle_eq
  rw [h]

@[simp] theorem State.endCycle_inq (s : State) : s.endCycle.inq = s.inq := by
  obtain ⟨rs, h⟩ := s.endCycle_eq
  rw [h]

@[simp] theorem State.endCycle_outq (s : State) : s.endCycle.outq = s.outq := by
  obtain ⟨rs, h⟩ := s.endCycle_eq
  rw [h]

@[simp] theorem State.endCycle_image (s : State) : s.endCycle.image = s.image := by
  obtain ⟨rs, h⟩ := s.endCycle_eq
  rw [h]

@[simp] theorem State.endCycle_cfg (s : State) : s.endCycle.cfg = s.cfg := by
  obtain ⟨rs, h⟩ := s.endCycle_eq
  rw [h]

/-- The states that a step can lead to from `s`. -/
inductive State.StepsTo (s : State) : State → Prop
  /-- Inside a Run, an error (60_exceptions.md R310). -/
  | raises {e : ErrorInfo} (hr : s.inRun = true) (he : s.StepError e) :
    s.StepsTo (s.raise (some s.pc) e).endCycle
  /-- Inside a Run, an instruction that raises nothing. -/
  | runs {i : Instr} {u : State} (hr : s.inRun = true) (hi : s.fetchDecode = .ok i) (hu : exec i s = .next u)
    (hf : u.fault = none) : s.StepsTo u.endCycle
  /-- Between Runs, with no command pending. -/
  | waits (hr : s.inRun = false) : s.StepsTo s
  /-- Between Runs, a command that is accepted: Construct needs no image, Reboot may find the block poisoned,
  and any other command finds it unpoisoned and has a Word for its value (40_host_interface.md R132). -/
  | accepts {t : State} {c : Command} {rest : List Command} (hr : s.inRun = false) (hc : s.cmds = c :: rest)
    (hi : (∀ txt, c ≠ .construct txt) → s.image ≠ [])
    (hf : (∀ txt, c ≠ .construct txt) → c ≠ .reboot → s.fault = none ∧ c.badWord s.cfg = none)
    (h : ({ s with cmds := rest } : State).Accepts c t) : s.StepsTo t
  /-- Between Runs, a command that a poisoned block refuses (60_exceptions.md R312). -/
  | refuses {f : FaultRecord} {rest : List Command} (hr : s.inRun = false) (hf : s.fault = some f) :
    s.StepsTo (({ s with cmds := rest } : State).respond (.error f))

/-- A step to a next state is one of these. -/
theorem step_stepsTo {s t : State} (h : step s = .next t) : s.StepsTo t := by
  cases hr : s.inRun with
  | true =>
    rcases step_inRun_cases hr h with ⟨e, rfl⟩ | ⟨i, u, hi, hu, hf, rfl⟩
    · obtain ⟨hrunning, hnone⟩ := State.inRun_iff.1 hr
      exact .raises hr ((stepRaisesExactlyFirstError s e hrunning hnone).1 ⟨_, h, by simp⟩)
    · exact .runs hr hi hu hf
  | false =>
    rw [step_between hr] at h
    rcases State.takeCommand_next h with ⟨-, rfl⟩ | ⟨c, rest, hc, hp⟩
    · exact .waits hr
    have hacc := State.accepts_accept { s with cmds := rest } c
    rcases State.perform_next hp with ⟨rfl, ⟨txt, rfl⟩ | ⟨hi, rfl⟩ | ⟨hi, hf, hw⟩⟩ |
      ⟨f, hf, -, -, -, rfl⟩
    · exact .accepts hr hc (fun hne => absurd rfl (hne txt)) (fun hne => absurd rfl (hne txt)) hacc
    · exact .accepts hr hc (fun _ => hi) (fun _ hne => absurd rfl hne) hacc
    · exact .accepts hr hc (fun _ => hi) (fun _ _ => ⟨hf, hw⟩) hacc
    · exact .refuses hr hf

/-! ### Who writes the image, PC and the FIFOs (10_state.md R33 to R43) -/

/-- Settles O34: an instruction writes neither by `exec_keeps`, a command by `State.Accepts.cfg` and
`State.Accepts.image`. -/
theorem imageWrittenOnlyByConstruct : Obligations.ImageWrittenOnlyByConstruct := by
  intro s t h
  cases step_stepsTo h with
  | raises => exact ⟨by simp, .inl (by simp)⟩
  | runs _ _ hu _ =>
    obtain ⟨hcfg, himage, -⟩ := exec_keeps hu
    exact ⟨by simp [hcfg], .inl (by simp [himage])⟩
  | waits => exact ⟨rfl, .inl rfl⟩
  | accepts hr hc _ _ hacc =>
    refine ⟨hacc.cfg, hacc.image.imp_right ?_⟩
    rintro ⟨txt, rfl, hload⟩
    exact ⟨hr, txt, _, _, hc, hload, rfl⟩
  | refuses => exact ⟨rfl, .inl rfl⟩

/-- Settles O36: between Runs by `State.Accepts.pc`. -/
theorem pcWriters : Obligations.PcWriters := by
  intro s t h hf hne
  cases step_stepsTo h with
  | raises hr _ => exact .inl hr
  | runs hr _ _ _ => exact .inl hr
  | waits => exact absurd rfl hne
  | accepts hr hc _ _ hacc =>
    obtain ⟨hpc, hcmd⟩ := hacc.pc.resolve_left hne
    exact .inr ⟨hr, hpc, by simpa [hc] using hcmd⟩
  | refuses => exact absurd rfl hne

/-- Settles O37: inside a Run by `State.Effect.inq` and `State.Effect.outq`, between Runs by `State.Accepts.inq`
and `State.Accepts.outq`. -/
theorem fifoWriters : Obligations.FifoWriters := by
  intro s t h hf
  cases step_stepsTo h with
  | raises => simp at hf
  | @runs i u hr hi hu hfu =>
    have heff := exec_effect hu hfu
    rw [State.endCycle_inq, State.endCycle_outq]
    constructor
    · rcases heff.inq with hsame | ⟨rfl, hv⟩
      · exact .inl hsame
      · exact .inr (.inl ⟨hr, hi, hv⟩)
    · rcases heff.outq with hsame | ⟨ma, v, rfl, hq⟩
      · exact .inl hsame
      · exact .inr (.inl ⟨hr, ma, v, hi, hq⟩)
  | waits => exact ⟨.inl rfl, .inl rfl⟩
  | @accepts _ c rest hr hc _ _ hacc =>
    have hhead : s.cmds.head? = some c := by rw [hc]; rfl
    constructor
    · rcases hacc.inq with hsame | ⟨v, rfl, hq⟩ | ⟨hq, hcmd⟩
      · exact .inl hsame
      · exact .inr (.inr (.inl ⟨hr, v, hhead, hq⟩))
      · exact .inr (.inr (.inr ⟨hr, hq, by simpa [hhead] using hcmd⟩))
    · rcases hacc.outq with hsame | ⟨rfl, hq⟩ | ⟨hq, hcmd⟩
      · exact .inl hsame
      · exact .inr (.inr (.inl ⟨hr, hhead, hq⟩))
      · exact .inr (.inr (.inr ⟨hr, hq, by simpa [hhead] using hcmd⟩))
  | refuses => exact ⟨.inl rfl, .inl rfl⟩

end Sys2Proof.Machine

namespace Sys2Proof.Machine

/-! ### The errors of a step are not InvalidProgramText (60_exceptions.md R301) -/

theorem State.OperandFails.error_eq {s : State} {k : Nat} {m : Mode} {e : ErrorInfo} (h : s.OperandFails k m e) :
    ∃ a, e = .memoryOutOfBounds a := by
  rcases h with ⟨-, rfl⟩ | ⟨-, p, -, -, rfl⟩ <;> exact ⟨_, rfl⟩

theorem State.DestinationFails.error_eq {s : State} {k : Nat} {e : ErrorInfo} (h : s.DestinationFails k e) :
    ∃ a, e = .memoryOutOfBounds a := by
  rcases h with ⟨-, rfl⟩ | ⟨p, -, -, rfl⟩ <;> exact ⟨_, rfl⟩

/-- A parameter that does not resolve raises MemoryOutOfBounds. -/
theorem State.FirstFailure.error_eq {s : State} {i : Instr} {e : ErrorInfo} (h : s.FirstFailure i e) :
    ∃ a, e = .memoryOutOfBounds a := by
  obtain ⟨k, -, -, hfail⟩ := h
  unfold State.ResolveFails at hfail
  split at hfail
  · exact hfail.error_eq
  · exact hfail.error_eq

theorem State.HandlerRaises.ne_invalidProgramText {s : State} {i : Instr} {e : ErrorInfo}
    (h : s.HandlerRaises i e) (n : Nat) : e ≠ .invalidProgramText n := by
  cases i with
  | add ma mb | multiply ma mb =>
    obtain ⟨a, b, -, -, -, -, rfl⟩ := h
    exact nofun
  | writeOutput ma =>
    obtain ⟨a, -, -, rfl⟩ := h
    exact nofun
  | jumpIfNonZero ma mb | jumpIfZero ma mb =>
    obtain ⟨a, b, -, -, -, -, rfl⟩ := h
    exact nofun
  | readInput | lessThan | equals | halt => exact h.elim

theorem decode_ne_invalidProgramText {w : Int} {n : Nat} : decode w ≠ .error (.invalidProgramText n) := by
  simp [decode_error, selectInstr_error]

theorem State.StepError.ne_invalidProgramText {s : State} {e : ErrorInfo} (h : s.StepError e) (n : Nat) :
    e ≠ .invalidProgramText n := by
  rcases h with ⟨-, rfl⟩ | ⟨w, -, hdec | ⟨i, -, -, hfail | ⟨-, hraise⟩⟩⟩
  · exact nofun
  · rintro rfl
    exact decode_ne_invalidProgramText hdec
  · obtain ⟨a, rfl⟩ := hfail.error_eq
    exact nofun
  · exact hraise.ne_invalidProgramText n

/-! ### Capacities -/

theorem withinCap_zero (cap : Option Nat) : withinCap cap 0 = true := by cases cap <;> simp [withinCap]

theorem withinCap_mono {cap : Option Nat} {m n : Nat} (h : withinCap cap n = true) (hmn : m ≤ n) :
    withinCap cap m = true := by
  cases cap with
  | none => rfl
  | some c => exact decide_eq_true (hmn.trans (of_decide_eq_true h))

/-- A FIFO that does not hold its capacity has room for one entry more (10_state.md R41). -/
theorem withinCap_succ {cap : Option Nat} {n : Nat} (h : withinCap cap n = true) (hne : cap ≠ some n) :
    withinCap cap (n + 1) = true := by
  cases cap with
  | none => rfl
  | some c => exact decide_eq_true (lt_of_le_of_ne (of_decide_eq_true h) fun hn => hne (congrArg some hn.symm))

/-! ### What keeps the invariant -/

/-- The invariant says nothing of the command port. -/
theorem State.Inv.withPort {s : State} (hs : s.Inv) (cs : List Command) (rs : List Response) :
    ({ s with cmds := cs, resps := rs } : State).Inv :=
  { hs with }

theorem State.Inv.respond {s : State} (hs : s.Inv) (r : Response) : (s.respond r).Inv := hs.withPort _ _

theorem State.Inv.endCycle {s : State} (hs : s.Inv) : s.endCycle.Inv := by
  obtain ⟨rs, h⟩ := s.endCycle_eq
  rw [h]
  exact hs.withPort s.cmds rs

/-- Loading an image into a legal configuration. -/
theorem State.Inv.load {s : State} {img : List Int} (hl : s.cfg.legal = true) (hwf : imageWf s.cfg img = true) :
    (s.load img).Inv := by
  simp only [imageWf, Bool.and_eq_true, Bool.not_eq_true', List.isEmpty_eq_false_iff] at hwf
  obtain ⟨⟨hne, hcap⟩, hwords⟩ := hwf
  exact {
    cfg_legal := hl
    image_size := hcap
    image_words := hwords
    mem_wf := fun _ => Bool.and_eq_true_iff.2 ⟨hcap, hwords⟩
    mem_size := fun _ => rfl
    pc_range := fun _ => Nat.zero_le _
    inq_words := fun _ => rfl
    inq_depth := fun _ => withinCap_zero _
    outq_words := fun _ => rfl
    outq_depth := fun _ => withinCap_zero _
    unbuilt := fun h => absurd h hne
    fault_kind := nofun }

/-- The image held is a program image. -/
theorem State.Inv.imageWf {s : State} (hs : s.Inv) (hi : s.image ≠ []) : imageWf s.cfg s.image = true := by
  simp [Sys2Proof.imageWf, hi, hs.image_size, hs.image_words]

/-- Recording an error poisons the block, and of a poisoned block the invariant says nothing more. -/
theorem State.Inv.raise {s : State} (hs : s.Inv) (hi : s.image ≠ []) {e : ErrorInfo}
    (he : ∀ n, e ≠ .invalidProgramText n) (at_ : Option Nat) : (s.raise at_ e).Inv where
  cfg_legal := hs.cfg_legal
  image_size := hs.image_size
  image_words := hs.image_words
  mem_wf := nofun
  mem_size := nofun
  pc_range := nofun
  inq_words := nofun
  inq_depth := nofun
  outq_words := nofun
  outq_depth := nofun
  unbuilt := fun h => absurd h hi
  fault_kind := fun n _ h => he n (congrArg FaultRecord.error (Option.some.inj h))

/-- Inside a Run there is an image: before Construct the execution state is Initialized. -/
theorem State.Inv.image_ne_nil {s : State} (hs : s.Inv) (hr : s.inRun = true) : s.image ≠ [] := by
  intro hnil
  obtain ⟨hstate, -⟩ := hs.unbuilt hnil
  rw [(State.inRun_iff.1 hr).1] at hstate
  cases hstate

section
/- A state of the invariant that is not poisoned. -/
variable {s : State} (hs : s.Inv) (hnone : s.fault = none)
include hs hnone

/-- What an instruction stores is a Word. -/
theorem State.Stores.fits {i : Instr} {d v : Int} (h : s.Stores i d v) : s.cfg.fits v = true := by
  cases i with
  | add ma mb | multiply ma mb =>
    obtain ⟨-, a, b, -, -, hv⟩ := h
    exact Config.store_fits hs.cfg_legal hv
  | lessThan ma mb | equals ma mb =>
    obtain ⟨-, a, b, -, -, rfl⟩ := h
    exact Config.fits_small hs.cfg_legal (by split <;> decide) (by split <;> decide)
  | readInput =>
    obtain ⟨-, hv⟩ := h
    exact List.all_eq_true.1 (hs.inq_words hnone) v (List.mem_of_head? hv)
  | writeOutput | jumpIfNonZero | jumpIfZero | halt => exact h.elim

omit hs hnone in
/-- An instruction that stores has its last parameter in memory, so PC after it is at most N. -/
theorem State.Stores.pc_le {i : Instr} {d v : Int} (h : s.Stores i d v) :
    s.pc + i.handler.row.adv ≤ s.mem.length := by
  cases i with
  | add ma mb | multiply ma mb | lessThan ma mb | equals ma mb =>
    obtain ⟨⟨hparam, -⟩, -⟩ := h
    exact hparam.lt
  | readInput =>
    obtain ⟨⟨hparam, -⟩, -⟩ := h
    exact hparam.lt
  | writeOutput | jumpIfNonZero | jumpIfZero | halt => exact h.elim

/-- An instruction that was fetched and raises nothing keeps the invariant. -/
theorem State.Effect.inv {t : State} {i : Instr} (hi : s.image ≠ []) (hpc : s.pc < s.mem.length)
    (h : s.Effect i t) : t.Inv := by
  cases h with
  | @stores _ d v hst =>
    have hsub : (if i = .readInput then s.inq.tail else s.inq) <:+ s.inq := by
      split
      · exact List.tail_suffix _
      · exact List.suffix_rfl
    exact { hs with
      mem_wf := fun _ => Memory.write_wf d (hs.mem_wf hnone) (hst.fits hs hnone)
      mem_size := fun _ => (Memory.write_length _ _ _).trans (hs.mem_size hnone)
      pc_range := fun _ => hst.pc_le.trans_eq (Memory.write_length _ _ _).symm
      inq_words := fun _ => List.all_eq_true.2 fun x hx =>
        List.all_eq_true.1 (hs.inq_words hnone) x (hsub.subset hx)
      inq_depth := fun _ => withinCap_mono (hs.inq_depth hnone) hsub.length_le
      unbuilt := fun h => absurd h hi }
  | blocks => exact { hs with unbuilt := fun h => absurd h hi }
  | @pushes ma a ha hroom =>
    obtain ⟨p, hp⟩ := ha.param
    exact { hs with
      pc_range := fun _ => hp.lt
      outq_words := fun _ => by simp [hs.outq_words hnone, ha.fits (hs.mem_wf hnone)]
      outq_depth := fun _ => by simpa using withinCap_succ (hs.outq_depth hnone) hroom
      unbuilt := fun h => absurd h hi }
  | jumps _ hn => exact { hs with pc_range := fun _ => hn }
  | halts =>
    have hadv := s.cfg.haltPcAdvance.isLt
    exact { hs with
      pc_range := fun _ => by
        show s.pc + s.cfg.haltPcAdvance.val ≤ s.mem.length
        omega
      unbuilt := fun h => absurd h hi }

end

/-- A command that the block accepts keeps the invariant. -/
theorem State.Accepts.inv {s t : State} {c : Command} (hs : s.Inv)
    (hi : (∀ txt, c ≠ .construct txt) → s.image ≠ [])
    (hf : (∀ txt, c ≠ .construct txt) → c ≠ .reboot → s.fault = none ∧ c.badWord s.cfg = none)
    (h : s.Accepts c t) : t.Inv := by
  cases h with
  | constructs hload => exact (State.Inv.load hs.cfg_legal (imageWf_of_loadProgram hload)).respond _
  | reboots => exact (State.Inv.load hs.cfg_legal (hs.imageWf (hi nofun))).respond _
  | @pushes v hroom =>
    obtain ⟨hnone, hword⟩ := hf nofun nofun
    have hfits : s.cfg.fits v = true := by simpa [Command.badWord] using hword
    have hinv : (s.inPush v).Inv := { hs with
      inq_words := fun _ => by simp [hs.inq_words hnone, hfits]
      inq_depth := fun _ => by simpa using withinCap_succ (hs.inq_depth hnone) hroom
      unbuilt := fun h => absurd h (hi nofun) }
    exact hinv.respond _
  | @pops v q hq =>
    obtain ⟨hnone, -⟩ := hf nofun nofun
    have hwords := hs.outq_words hnone
    have hdepth := hs.outq_depth hnone
    rw [hq] at hwords hdepth
    have hinv : ({ s with outq := q } : State).Inv := { hs with
      outq_words := fun _ => (Bool.and_eq_true_iff.1 hwords).2
      outq_depth := fun _ => withinCap_mono hdepth (Nat.le_succ _)
      unbuilt := fun h => absurd h (hi nofun) }
    exact hinv.respond _
  | @writes a v =>
    obtain ⟨hnone, hword⟩ := hf nofun nofun
    have hfits : s.cfg.fits v = true := by simpa [Command.badWord] using hword
    have hinv : ({ s with mem := Memory.write s.mem a v } : State).Inv := { hs with
      mem_wf := fun _ => Memory.write_wf a (hs.mem_wf hnone) hfits
      mem_size := fun _ => (Memory.write_length _ _ _).trans (hs.mem_size hnone)
      pc_range := fun _ => (hs.pc_range hnone).trans_eq (Memory.write_length _ _ _).symm }
    exact hinv.respond _
  | runs => exact { hs with unbuilt := fun h => absurd h (hi nofun) }
  | answers => exact hs.respond _
  | raises hc he => exact (hs.raise (hi hc) he none).respond _

/-- Settles O28: an error by `State.Inv.raise`, an instruction by `State.Effect.inv`, a command by
`State.Accepts.inv`. -/
theorem stepKeepsInvariant : Obligations.StepKeepsInvariant := by
  intro s t hs h
  cases step_stepsTo h with
  | raises hr he => exact (hs.raise (hs.image_ne_nil hr) he.ne_invalidProgramText _).endCycle
  | runs hr hi hu hf =>
    obtain ⟨w, hw, -⟩ := State.fetchDecode_ok.1 hi
    have hpc := (Memory.read_lt hw).2
    have heff := exec_effect hu hf
    exact (heff.inv hs (State.inRun_iff.1 hr).2 (hs.image_ne_nil hr) (by omega)).endCycle
  | waits => exact hs
  | @accepts _ c rest _ _ hi hf hacc => exact hacc.inv (hs.withPort rest s.resps) hi hf
  | @refuses f rest => exact (hs.withPort rest s.resps).respond _

/-- The reset state of a legal configuration. -/
theorem State.Inv.resetWith {c : Config} (hl : c.legal = true) : (State.resetWith c).Inv where
  cfg_legal := hl
  image_size := withinCap_zero _
  image_words := rfl
  mem_wf := fun _ => Bool.and_eq_true_iff.2 ⟨withinCap_zero _, rfl⟩
  mem_size := fun _ => rfl
  pc_range := fun _ => Nat.le_refl 0
  inq_words := fun _ => rfl
  inq_depth := fun _ => withinCap_zero _
  outq_words := fun _ => rfl
  outq_depth := fun _ => withinCap_zero _
  unbuilt := fun _ => ⟨rfl, rfl, rfl, rfl⟩
  fault_kind := nofun

/-- Settles O27: the reference configuration is a legal one. -/
theorem resetSatisfiesInvariant : Obligations.ResetSatisfiesInvariant :=
  ⟨State.Inv.resetWith (by decide), fun _ => State.Inv.resetWith⟩

/-! ### What follows from the invariant -/

/-- A legal PC_BITS holds every count of cells up to MEM_MAX (00_scope.md R7). -/
theorem lt_two_pow_pcBits {c : Config} {b n : Nat} (hl : c.legal = true) (hb : c.pcBits = some b)
    (hn : withinCap c.memMax n = true) : n < 2 ^ b := by
  simp only [Config.legal, hb, Bool.and_eq_true] at hl
  obtain ⟨-, hbits⟩ := hl
  cases hm : c.memMax with
  | none => simp [hm] at hbits
  | some m =>
    simp only [hm, withinCap, decide_eq_true_eq] at hbits hn
    exact hn.trans_lt hbits

/-- Settles O30: the next state satisfies the invariant by `stepKeepsInvariant`, so its PC is at most N, and N is
at most MEM_MAX. -/
theorem pcFitsItsRegister : Obligations.PcFitsItsRegister := by
  intro s t b hs hb h hf
  have ht := stepKeepsInvariant s t hs h
  obtain ⟨hcfg, -⟩ := imageWrittenOnlyByConstruct s t h
  obtain ⟨hcap, -⟩ := Bool.and_eq_true_iff.1 (ht.mem_wf hf)
  have hlen := lt_two_pow_pcBits ht.cfg_legal (hcfg ▸ hb) hcap
  exact (ht.pc_range hf).trans_lt hlen

/-! ### A step stops nowhere else (log entries 6 and 7) -/

theorem Command.isConstruct_eq_false {c : Command} (h : ∀ txt, c ≠ .construct txt) : c.isConstruct = false := by
  cases c with
  | construct txt => exact absurd rfl (h txt)
  | _ => rfl

/-- A poisoned block refuses every command but Reboot and Construct with the recorded fault. -/
theorem State.perform_poisoned {s : State} {f : FaultRecord} {c : Command} (hi : s.image ≠ [])
    (hf : s.fault = some f) (hc : ∀ txt, c ≠ .construct txt) (hreb : c ≠ .reboot) :
    s.perform c = .next (s.respond (.error f)) := by
  simp [State.perform, Command.isConstruct_eq_false hc, hi, hf, hreb]

/-- The block answers every request of the port when it holds an image, and every Construct. -/
theorem State.perform_isNext {s : State} {c : Command} (hi : s.image ≠ [] ∨ ∃ txt, c = .construct txt)
    (hw : c.badWord s.cfg = none) : ∃ t, s.perform c = .next t := by
  by_cases hcon : ∃ txt, c = .construct txt
  · obtain ⟨txt, rfl⟩ := hcon
    exact ⟨_, rfl⟩
  · have himage := hi.resolve_right hcon
    cases hf : s.fault with
    | none => exact ⟨_, State.perform_unpoisoned himage hf hw⟩
    | some f =>
      by_cases hreb : c = .reboot
      · exact ⟨_, hreb ▸ State.perform_reboot himage⟩
      · exact ⟨_, State.perform_poisoned himage hf (not_exists.1 hcon) hreb⟩

/-- Settles O29: inside a Run by `State.cycle_isNext`, between Runs by `State.perform_isNext`. -/
theorem stepNeverStops : Obligations.StepNeverStops := by
  intro s _ htyped hcan
  cases hr : s.inRun with
  | true =>
    rw [step_inRun hr]
    exact s.cycle_isNext
  | false =>
    cases hc : s.cmds with
    | nil => exact ⟨s, by simp [step_between hr, State.takeCommand, hc]⟩
    | cons c rest =>
      rw [step_command hr hc]
      refine State.perform_isNext ?_ (htyped c (by simp [hc]))
      simpa [hc, and_comm, eq_comm] using hcan

end Sys2Proof.Machine

namespace Sys2Proof.Machine

/-! ### A poisoned block (60_exceptions.md R313) -/

/-- States that the host cannot tell apart stay so when each gives the same answer. -/
theorem State.SameToHost.respond {s t : State} (h : s.SameToHost t) (r : Response) :
    (s.respond r).SameToHost (t.respond r) := by
  obtain ⟨hcfg, himage, hfault, hcmds, hresps, heq⟩ := h
  exact ⟨hcfg, himage, hfault, hcmds, congrArg (· ++ [r]) hresps, fun hf => congrArg (·.respond r) (heq hf)⟩

/-- Loading an image writes everything that the host could not see. -/
theorem State.SameToHost.load {s t : State} (h : s.SameToHost t) (img : List Int) : s.load img = t.load img := by
  obtain ⟨hcfg, -, -, hcmds, hresps, -⟩ := h
  simp [State.load, hcfg, hcmds, hresps]

theorem State.SameToHost.refl (s : State) : s.SameToHost s := ⟨rfl, rfl, rfl, rfl, rfl, fun _ => rfl⟩

theorem SameOutcome.refl (o : Host.Outcome State Fault Refusal) : SameOutcome o o := by
  cases o with
  | next s => exact State.SameToHost.refl s
  | fault f => exact rfl
  | refused r => exact rfl

/-- A command other than Construct needs an image (log entry 6). -/
theorem State.perform_noInstance {s : State} {c : Command} (hi : s.image = []) (hc : ∀ txt, c ≠ .construct txt) :
    s.perform c = .fault .noInstance := by
  simp [State.perform, Command.isConstruct_eq_false hc, hi]

/-- Two poisoned blocks that the host cannot tell apart do the same with a command. -/
theorem State.SameToHost.perform {s t : State} {f : FaultRecord} (h : s.SameToHost t) (hf : s.fault = some f)
    (c : Command) : SameOutcome (s.perform c) (t.perform c) := by
  obtain ⟨hcfg, himage, hfault, -⟩ := id h
  by_cases hcon : ∃ txt, c = .construct txt
  · obtain ⟨txt, rfl⟩ := hcon
    show (s.construct txt).SameToHost (t.construct txt)
    cases hload : loadProgram s.cfg txt with
    | ok img =>
      rw [State.construct_ok hload, State.construct_ok (hcfg ▸ hload), h.load img]
      exact .refl _
    | error e =>
      rw [State.construct_error hload, State.construct_error (hcfg ▸ hload)]
      exact h.respond _
  have hne := not_exists.1 hcon
  by_cases hi : s.image = []
  · rw [State.perform_noInstance hi hne, State.perform_noInstance (himage ▸ hi) hne]
    exact rfl
  have hi' : t.image ≠ [] := himage ▸ hi
  by_cases hreb : c = .reboot
  · subst hreb
    rw [State.perform_reboot hi, State.perform_reboot hi']
    show (s.reboot.respond .done).SameToHost (t.reboot.respond .done)
    rw [State.reboot, State.reboot, himage, h.load]
    exact .refl _
  · rw [State.perform_poisoned hi hf hne hreb, State.perform_poisoned hi' (hfault ▸ hf) hne hreb]
    exact h.respond _

/-- One step of two blocks that the host cannot tell apart. -/
theorem State.SameToHost.step {s t : State} (h : s.SameToHost t) :
    SameOutcome (Machine.step s) (Machine.step t) := by
  obtain ⟨hcfg, himage, hfault, hcmds, hresps, heq⟩ := id h
  cases hf : s.fault with
  | none =>
    rw [heq hf]
    exact .refl _
  | some f =>
    have hf' : t.fault = some f := hfault ▸ hf
    rw [step_between (State.inRun_of_fault hf), step_between (State.inRun_of_fault hf'), State.takeCommand,
      State.takeCommand, ← hcmds]
    cases hc : s.cmds with
    | nil => exact h
    | cons c rest =>
      have hrest : ({ s with cmds := rest } : State).SameToHost { t with cmds := rest } :=
        ⟨hcfg, himage, hfault, rfl, hresps, fun hnone => absurd (hnone.symm.trans hf) nofun⟩
      exact hrest.perform hf c

/-- Outcomes that no host command can tell apart are of the same kind. -/
theorem SameOutcome.cases {o p : Host.Outcome State Fault Refusal} (h : SameOutcome o p) :
    (∃ s t, o = .next s ∧ p = .next t ∧ s.SameToHost t) ∨ (∃ f, o = .fault f ∧ p = .fault f) ∨
      ∃ r, o = .refused r ∧ p = .refused r := by
  cases o with
  | next s =>
    cases p with
    | next t => exact .inl ⟨s, t, rfl, rfl, h⟩
    | fault | refused => exact h.elim
  | fault f =>
    cases p with
    | fault g =>
      obtain rfl : f = g := h
      exact .inr (.inl ⟨f, rfl, rfl⟩)
    | next | refused => exact h.elim
  | refused r =>
    cases p with
    | refused q =>
      obtain rfl : r = q := h
      exact .inr (.inr ⟨r, rfl, rfl⟩)
    | next | fault => exact h.elim

/-- Settles O43: by induction on the number of steps, each by `State.SameToHost.step`. -/
theorem poisonedStateUnobservable : Obligations.PoisonedStateUnobservable := by
  intro k
  induction k with
  | zero => exact fun s t h => h
  | succ k ih =>
    intro s t h
    rcases h.step.cases with ⟨s', t', hs, ht, h'⟩ | ⟨f, hs, ht⟩ | ⟨r, hs, ht⟩
    · simpa [stepN_succ, hs, ht] using ih s' t' h'
    · simp [stepN_succ, hs, ht, SameOutcome]
    · simp [stepN_succ, hs, ht, SameOutcome]

/-- Settles O42: `State.perform_poisoned`. -/
theorem poisonedRefusesCommands : Obligations.PoisonedRefusesCommands := by
  intro s f c rest h hf hreb hcon
  obtain ⟨hr, hi, hc⟩ := h
  rw [step_command hr hc]
  exact State.perform_poisoned hi hf hcon hreb

/-! ### The pending commands inside a Run (40_host_interface.md R131) -/

/-- `s` with other pending commands. -/
def State.withCmds (cs : List Command) (s : State) : State := { s with cmds := cs }

theorem State.withCmds_map_ok (cs : List Command) (s : State) :
    State.withCmds cs <$> (Except.ok s : Except ErrorInfo State) = .ok (s.withCmds cs) := rfl

theorem State.withCmds_map_error (cs : List Command) (e : ErrorInfo) :
    State.withCmds cs <$> (Except.error e : Except ErrorInfo State) = .error e := rfl

theorem State.memWrite_withCmds (s : State) (cs : List Command) (a v : Int) :
    (s.withCmds cs).memWrite a v = State.withCmds cs <$> s.memWrite a v := by
  have hrange : (s.withCmds cs).inRange a = s.inRange a := rfl
  cases h : s.inRange a <;> simp only [State.memWrite, hrange, h] <;> rfl

/-- The end of an instruction, when what it settles is the same but for the pending commands. -/
theorem State.settle_withCmds {s t : State} (cs : List Command) {r : Except ErrorInfo State}
    (h : s.settle r = .next t) :
    (s.withCmds cs).settle (State.withCmds cs <$> r) = .next (t.withCmds cs) := by
  rcases s.settle_next h with rfl | ⟨e, rfl, rfl⟩ <;> rfl

/-- Parameters are read through memory and PC alone, so only the write has to be carried over. -/
theorem State.writeResult_withCmds {s t : State} (cs : List Command) {h : Handler} {ma mb : Mode}
    {f : Int → Int → Except ErrorInfo Int} (ht : s.writeResult h ma mb f = .next t) :
    (s.withCmds cs).writeResult h ma mb f = .next (t.withCmds cs) := by
  have hsettle := State.settle_withCmds cs ht
  simp only [map_bind, State.withCmds_map_ok] at hsettle
  simp only [State.writeResult, State.memWrite_withCmds, bind_map_left]
  exact hsettle

theorem State.jump_withCmds {s t : State} (cs : List Command) {h : Handler} {ma mb : Mode}
    {taken : Int → Bool} (ht : s.jump h ma mb taken = .next t) :
    (s.withCmds cs).jump h ma mb taken = .next (t.withCmds cs) := by
  have hsettle := State.settle_withCmds cs ht
  simp only [map_bind, apply_ite, State.withCmds_map_ok, State.withCmds_map_error] at hsettle
  exact hsettle

theorem execWriteOutput_withCmds {s t : State} (cs : List Command) {ma : Mode}
    (ht : execWriteOutput ma s = .next t) : execWriteOutput ma (s.withCmds cs) = .next (t.withCmds cs) := by
  have hsettle := State.settle_withCmds cs ht
  simp only [map_bind, apply_ite, State.withCmds_map_ok, State.withCmds_map_error] at hsettle
  exact hsettle

/-- No instruction reads the pending commands. -/
theorem exec_withCmds {i : Instr} {s t : State} (cs : List Command) (ht : exec i s = .next t) :
    exec i (s.withCmds cs) = .next (t.withCmds cs) := by
  cases i with
  | add | multiply | lessThan | equals => exact State.writeResult_withCmds cs ht
  | jumpIfNonZero | jumpIfZero => exact State.jump_withCmds cs ht
  | writeOutput => exact execWriteOutput_withCmds cs ht
  | readInput =>
    cases hq : s.inq with
    | nil =>
      cases (execReadInput_empty hq).symm.trans ht
      exact execReadInput_empty (s := s.withCmds cs) hq
    | cons v rest =>
      rcases execReadInput_next hq ht with ⟨d, hd, rfl⟩ | ⟨e, hd, rfl⟩
      · exact execReadInput_resolved (s := s.withCmds cs) hq hd
      · exact execReadInput_unresolved (s := s.withCmds cs) hq hd
  | halt =>
    cases (execHalt_eq s).symm.trans ht
    exact execHalt_eq (s.withCmds cs)

theorem State.endCycle_withCmds (cs : List Command) (s : State) :
    (s.withCmds cs).endCycle = s.endCycle.withCmds cs := by
  have hfault : (s.withCmds cs).fault = s.fault := rfl
  have hstate : (s.withCmds cs).state = s.state := rfl
  simp only [State.endCycle, hfault, hstate]
  split
  · rfl
  · split <;> rfl

@[simp] theorem State.endCycle_cmds (s : State) : s.endCycle.cmds = s.cmds := by
  obtain ⟨rs, h⟩ := s.endCycle_eq
  rw [h]

/-- Inside a Run, a step whose fetch or decoding fails takes that error at the PC. -/
theorem step_of_fetchDecode_error {s : State} {e : ErrorInfo} (hr : s.inRun = true)
    (h : s.fetchDecode = .error e) : step s = .next (s.raise (some s.pc) e).endCycle := by
  simp [step_inRun hr, State.cycle, h]

/-- Settles O33: the fetch and the decoder read memory and PC alone, an instruction is the same by
`exec_withCmds`, and takes no command by `exec_keeps`. -/
theorem hostHasNoMoveDuringRun : Obligations.HostHasNoMoveDuringRun := by
  intro s cs hrunning hnone
  have hr : s.inRun = true := State.inRun_iff.2 ⟨hrunning, hnone⟩
  have hr' : (s.withCmds cs).inRun = true := hr
  show ∃ t, step s = .next t ∧ t.cmds = s.cmds ∧ step (s.withCmds cs) = .next (t.withCmds cs)
  cases hi : s.fetchDecode with
  | error e =>
    have hi' : (s.withCmds cs).fetchDecode = .error e := hi
    refine ⟨_, step_of_fetchDecode_error hr hi, by simp, ?_⟩
    rw [← State.endCycle_withCmds]
    exact step_of_fetchDecode_error hr' hi'
  | ok i =>
    obtain ⟨u, hu⟩ := exec_next i s
    obtain ⟨-, -, hcmds, -⟩ := exec_keeps hu
    refine ⟨u.endCycle, step_of_exec hr hi hu, by simp [hcmds], ?_⟩
    rw [← State.endCycle_withCmds]
    exact step_of_exec hr' hi (exec_withCmds cs hu)

end Sys2Proof.Machine

namespace Sys2Proof.Machine

/-! ### Steps inside a Run -/

/-- Settles O9: the step by `step_of_exec`, the answer by the state that the instruction leaves. -/
theorem stepRunsDecodedInstruction : Obligations.StepRunsDecodedInstruction := by
  intro s t w i hrunning hnone hw hdec ht
  have hstep := step_of_exec (State.inRun_iff.2 ⟨hrunning, hnone⟩) (State.fetchDecode_ok.2 ⟨w, hw, hdec⟩) ht
  refine ⟨fun hf hst => ?_, fun hf hst => ?_, fun f hf => ?_⟩
  · rw [hstep, State.endCycle_running hf hst]
  · rw [hstep, State.endCycle_stopped hf hst]
    rfl
  · rw [hstep, State.endCycle_fault hf]
    rfl

/-- Settles O10: there is no cell at the PC, so the fetch raises. -/
theorem fetchOutOfRangeRaises : Obligations.FetchOutOfRangeRaises := by
  intro s hrunning hnone hout
  have hread : Memory.read s.mem (s.pc : Int) = none := Memory.read_eq_none.2 fun h => hout h.2
  have hfetch : s.fetchDecode = .error (.memoryOutOfBounds (s.pc : Int)) :=
    State.fetchDecode_error.2 (.inl ⟨hread, rfl⟩)
  exact (stepRaises_iff (State.inRun_iff.2 ⟨hrunning, hnone⟩)).2 (.inl hfetch)

/-! ### Accessors and Run (40_host_interface.md R139 to R144) -/

theorem State.state_ne_running {s : State} (hr : s.inRun = false) (hf : s.fault = none) : s.state ≠ .running :=
  fun hst => absurd (State.inRun_iff.2 ⟨hst, hf⟩) (Bool.eq_false_iff.1 hr)

/-- Settles O46: each is accepted and only answers. -/
theorem accessorsChangeNothing : Obligations.AccessorsChangeNothing := by
  intro s rest hf
  refine ⟨fun h => h.step_next hf rfl rfl, fun h => ⟨h.step_next hf rfl rfl, ?_⟩, fun h => ?_⟩
  · obtain ⟨hr, -⟩ := h
    exact State.state_ne_running hr hf
  · exact ⟨_, h.step_next hf rfl rfl⟩

/-- Run taken by a block that is not poisoned enters a Run. -/
theorem State.Takes.step_run {s : State} {rest : List Command} (h : s.Takes .run rest) (hf : s.fault = none) :
    step s = .next { s with state := .running, cmds := rest } :=
  h.step_next hf rfl rfl

/-- Settles O49: `State.Takes.step_run`, and `step_inRun` for the step after it. -/
theorem runEntersRunning : Obligations.RunEntersRunning := by
  intro s rest h hf
  refine ⟨?_, h.step_run hf, step_inRun (State.inRun_iff.2 ⟨rfl, hf⟩)⟩
  obtain ⟨hr, -⟩ := h
  exact State.state_ne_running hr hf

section
/- Run, and the first instruction of the Run. -/
variable {s u : State} {rest : List Command} {i : Instr} (h : s.Takes .run rest) (hf : s.fault = none)
  (hi : s.fetchDecode = .ok i) (hu : exec i { s with state := .running, cmds := rest } = .next u)
include h hf hi hu

theorem State.Takes.stepN_two_run : stepN 2 s = .next u.endCycle := by
  have hr : ({ s with state := .running, cmds := rest } : State).inRun = true := State.inRun_iff.2 ⟨rfl, hf⟩
  exact stepN_two (h.step_run hf) (step_of_exec hr hi hu)

variable (huf : u.fault = none)
include huf

/-- The Run goes on. -/
theorem State.Takes.stepN_two_goes_on (hst : u.state = .running) : stepN 2 s = .next u := by
  rw [h.stepN_two_run hf hi hu, State.endCycle_running huf hst]

/-- The Run ends, with the state it ended in for its answer. -/
theorem State.Takes.stepN_two_ends (hst : u.state ≠ .running) :
    stepN 2 s = .next (u.respond (.state u.state)) := by
  rw [h.stepN_two_run hf hi hu, State.endCycle_stopped huf hst]

end

/-- Settles O50: the second step is the Halt, which leaves PC and, as before the Run, the state Halted. -/
theorem haltedRunHaltsAgain : Obligations.HaltedRunHaltsAgain := by
  intro s rest h hf hst hadv hi
  rw [h.stepN_two_ends hf hi (execHalt_eq _) hf nofun]
  simp [State.answered, State.respond, hadv, hst]

/-- Settles O51: the second step is the ReadInput, by whether the input FIFO is empty. -/
theorem blockedRunResumes : Obligations.BlockedRunResumes := by
  intro s rest h hf hst hi
  refine ⟨fun hq => ?_, fun v q d hq hd => ?_⟩
  · rw [h.stepN_two_ends hf hi (execReadInput_empty hq) hf nofun]
    simp [State.answered, State.respond, State.setState, hst]
  · exact h.stepN_two_goes_on hf hi (execReadInput_resolved hq hd) hf rfl

/-! ### Several instances (60_exceptions.md R321) -/

/-- Settles O55: the step at position `k` replaces the state there and no other. -/
theorem instancesAreIndependent : Obligations.InstancesAreIndependent := by
  intro b b' k h
  unfold Instances.stepAt at h
  cases hk : b[k]? with
  | none => simp [hk] at h
  | some s =>
    cases hs : step s with
    | next t =>
      obtain rfl : b.set k t = b' := by simpa [hk, hs] using h
      have hlt := (List.getElem?_eq_some_iff.1 hk).1
      exact ⟨⟨s, t, rfl, hs, List.getElem?_set_self hlt⟩, List.length_set,
        fun j hj => List.getElem?_set_ne (Ne.symm hj)⟩
    | fault f => simp [hk, hs] at h
    | refused r => simp [hk, hs] at h

end Sys2Proof.Machine

namespace Sys2Proof

/-! ### The format of an instruction (30_encoding.md R99) -/

theorem Instr.row_len (i : Instr) : i.handler.row.len = i.params + 1 := by cases i <;> rfl

/-- A handler's parameters are its sources and, if it has one, its destination. -/
theorem Handler.row_len (h : Handler) :
    h.row.len = h.row.sources.length + 1 + (if h.row.dest.isSome then 1 else 0) := by cases h <;> rfl

/-- The destination stands after the sources (10_state.md R44). -/
theorem Handler.row_dest {h : Handler} {k : Nat} (hk : h.row.dest = some k) : k = h.row.sources.length := by
  cases h <;> simp_all [Handler.row]

theorem exists_instr_of_two_modes {h : Handler} {ms : List Mode} {f : Mode → Mode → Instr}
    (hf : ∀ ma mb, (f ma mb).handler = h ∧ (f ma mb).modes = [ma, mb]) (hms : ms.length = 2) :
    ∃ i : Instr, i.handler = h ∧ i.modes = ms := by
  obtain ⟨ma, mb, rfl⟩ := List.length_eq_two.1 hms
  exact ⟨f ma mb, hf ma mb⟩

/-- A handler has an instruction for every choice of its source modes. -/
theorem Handler.exists_instr (h : Handler) {ms : List Mode} (hms : ms.length = h.row.sources.length) :
    ∃ i : Instr, i.handler = h ∧ i.modes = ms := by
  cases h with
  | add => exact exists_instr_of_two_modes (f := .add) (fun _ _ => ⟨rfl, rfl⟩) hms
  | multiply => exact exists_instr_of_two_modes (f := .multiply) (fun _ _ => ⟨rfl, rfl⟩) hms
  | jumpIfNonZero => exact exists_instr_of_two_modes (f := .jumpIfNonZero) (fun _ _ => ⟨rfl, rfl⟩) hms
  | jumpIfZero => exact exists_instr_of_two_modes (f := .jumpIfZero) (fun _ _ => ⟨rfl, rfl⟩) hms
  | lessThan => exact exists_instr_of_two_modes (f := .lessThan) (fun _ _ => ⟨rfl, rfl⟩) hms
  | equals => exact exists_instr_of_two_modes (f := .equals) (fun _ _ => ⟨rfl, rfl⟩) hms
  | writeOutput =>
    obtain ⟨ma, rfl⟩ := List.length_eq_one_iff.1 hms
    exact ⟨.writeOutput ma, rfl, rfl⟩
  | readInput => exact ⟨.readInput, rfl, (List.length_eq_zero_iff.1 hms).symm⟩
  | halt => exact ⟨.halt, rfl, (List.length_eq_zero_iff.1 hms).symm⟩

/-- Position modes at the end of a list contribute no digit. -/
theorem modeDigits_take {ms : List Mode} {n : Nat} (h : ∀ k m, ms[k]? = some m → n ≤ k → m = .position) :
    modeDigits (ms.take n) = modeDigits ms := by
  induction ms generalizing n with
  | nil => simp
  | cons a ms ih =>
    obtain ⟨hhead, htail⟩ := forall_getElem?_cons.1 h
    cases n with
    | zero =>
      obtain rfl := hhead (Nat.le_refl 0)
      have hms := ih (n := 0) fun k m hk _ => htail k m hk (Nat.zero_le _)
      rw [modeDigits, ← hms]
      rfl
    | succ n =>
      have hms := ih fun k m hk hn => htail k m hk (Nat.succ_le_succ hn)
      rw [List.take_succ_cons, modeDigits, modeDigits, hms]

end Sys2Proof

namespace Sys2Proof.Machine

/-! ### Assembling an instruction (30_encoding.md R110, R113) -/

theorem mapM_eq_some_iff {α β : Type} {f : α → Option β} {l : List α} {vs : List β} :
    l.mapM f = some vs ↔ l.map f = vs.map some := by
  induction l generalizing vs with
  | nil => cases vs <;> simp
  | cons a l ih =>
    cases vs with
    | nil => simp [Option.bind_eq_some_iff]
    | cons v vs => simp [Option.bind_eq_some_iff, ih]

theorem exists_mapM_eq_some {α β : Type} {f : α → Option β} {l : List α} :
    (∃ vs, l.mapM f = some vs) ↔ ∀ a ∈ l, ∃ v, f a = some v := by
  induction l with
  | nil => simp
  | cons a l ih => simp [Option.bind_eq_some_iff, ← ih]

/-- The mode that an operand is written with (30_encoding.md R113). -/
def AsmArg.mode : AsmArg → Mode
  | .cell _ => .position
  | .imm _ => .immediate

theorem AsmArg.digit_eq (a : AsmArg) : a.digit = a.mode.digit := by cases a <;> rfl

theorem AsmArg.mode_eq_immediate {a : AsmArg} : a.mode = .immediate ↔ ∃ e, a = .imm e := by
  cases a <;> simp [AsmArg.mode]

theorem AsmArg.digit_eq_zero {a : AsmArg} : a.digit = 0 ↔ ∃ e, a = .cell e := by
  cases a <;> simp [AsmArg.digit]

theorem argDigits_eq (args : List AsmArg) : argDigits args = modeDigits (args.map AsmArg.mode) := by
  induction args with
  | nil => rfl
  | cons a args ih => rw [argDigits, List.map_cons, modeDigits, ih, a.digit_eq]

theorem getElem?_map_mode {args : List AsmArg} {k : Nat} {m : Mode} :
    (args.map AsmArg.mode)[k]? = some m ↔ ∃ arg, args[k]? = some arg ∧ arg.mode = m := by
  simp

/-- When an instruction assembles, and to which cells. -/
theorem assembleOp_eq_some {env : List (Text × Nat)} {h : Handler} {args : List AsmArg} {cells : List Int} :
    assembleOp env h args = some cells ↔
      args.length + 1 = h.row.len ∧ (∀ k, h.row.dest = some k → ∃ e, args[k]? = some (.cell e)) ∧
        ∃ vs, (args.mapM fun a => a.expr.value env) = some vs ∧
          cells = ((h.row.opcode + 100 * argDigits args : Nat) : Int) :: vs := by
  simp only [assembleOp, Option.ite_none_right_eq_some, Bool.and_eq_true, decide_eq_true_eq,
    Option.map_eq_some_iff, and_assoc, eq_comm (a := cells)]
  refine and_congr_right fun _ => and_congr ?_ Iff.rfl
  cases h.row.dest with
  | none => simp
  | some k => simp [Option.any_eq_true, AsmArg.digit_eq_zero]

/-- The cells of an assembled instruction are its encoding. -/
theorem exists_encode_of_assembleOp {env : List (Text × Nat)} {h : Handler} {args : List AsmArg} {cells : List Int}
    (ha : assembleOp env h args = some cells) :
    ∃ i ps, cells = encode i ps ∧ i.handler = h ∧ i.modes = (args.map AsmArg.mode).take h.row.sources.length ∧
      args.map (fun a => a.expr.value env) = ps.map some ∧ ps.length = i.params := by
  obtain ⟨hlen, hdest, vs, hvs, rfl⟩ := assembleOp_eq_some.1 ha
  have hvals := mapM_eq_some_iff.1 hvs
  have hrow := h.row_len
  obtain ⟨i, rfl, hmodes⟩ := h.exists_instr (ms := (args.map AsmArg.mode).take h.row.sources.length)
    (by simp; omega)
  have hdigits : modeDigits i.modes = argDigits args := by
    rw [hmodes, argDigits_eq]
    refine modeDigits_take fun k m hk hle => ?_
    obtain ⟨arg, harg, rfl⟩ := getElem?_map_mode.1 hk
    have hlt := (List.getElem?_eq_some_iff.1 harg).1
    cases hd : i.handler.row.dest with
    | none =>
      simp only [hd, Option.isSome_none, Bool.false_eq_true, if_false] at hrow
      omega
    | some j =>
      simp only [hd, Option.isSome_some, if_true] at hrow
      obtain ⟨e, he⟩ := hdest j hd
      obtain rfl : k = j := by
        have := Handler.row_dest hd
        omega
      obtain rfl := Option.some.inj (harg.symm.trans he)
      rfl
  have hcount := congrArg List.length hvals
  have hparams := i.row_len
  simp only [List.length_map] at hcount
  refine ⟨i, vs, ?_, rfl, hmodes, hvals, by omega⟩
  rw [encode, encodeWord, hdigits]

/-- Settles O54: when it assembles by `assembleOp_eq_some`; the cells are an encoding by
`exists_encode_of_assembleOp`, which decodes by `decodeCells_encode`. -/
theorem assembledInstructionDecodes : Obligations.AssembledInstructionDecodes := by
  intro env h args
  refine ⟨?_, fun cells ha => ?_⟩
  · rw [← exists_mapM_eq_some]
    simp only [assembleOp_eq_some]
    constructor
    · rintro ⟨cells, hlen, hdest, vs, hvs, -⟩
      exact ⟨hlen, ⟨vs, hvs⟩, hdest⟩
    · rintro ⟨hlen, ⟨vs, hvs⟩, hdest⟩
      exact ⟨_, hlen, hdest, vs, hvs, rfl⟩
  · obtain ⟨i, ps, rfl, hi, hmodes, hvals, hlen⟩ := exists_encode_of_assembleOp ha
    refine ⟨i, ps, rfl, by simpa using decodeCells_encode hlen [], hi, ?_, fun k arg hk => ?_, fun k m hk => ?_⟩
    · simpa using congrArg List.length hvals
    · have hval := congrArg (·[k]?) hvals
      cases hp : ps[k]? with
      | none => simp [hk, hp] at hval
      | some v => simpa [hk, hp] using hval
    · rw [hmodes, List.getElem?_take] at hk
      obtain ⟨arg, harg, rfl⟩ := getElem?_map_mode.1 (Option.ite_none_right_eq_some.1 hk).2
      exact ⟨arg, harg, AsmArg.mode_eq_immediate⟩

end Sys2Proof.Machine
